-- ==== Sys2Proof/Word.lean ====
section
/-! DEFINITION. The word types of the hardware (00_scope.md R7, R8; 30_encoding.md R83). -/

namespace Sys2Proof

/-- A byte: 8 bits, bit 0 the least significant (R8, D2). -/
abbrev Byte := BitVec 8

/-- A command word: `op[9:8]`, `data[7:0]` (R83). -/
abbrev CommandWord := BitVec 10

end Sys2Proof
end

