-- ==== Sys2Proof/Config.lean ====
section
/-! DEFINITION. What is fixed when an instance is built: the wire constants (00_scope.md R7, 30_encoding.md
R60 and R61) and the one parameter `MAX_PAYLOAD` (00_scope.md R6). There is no free value on this hardware. -/

namespace Sys2Proof

/-- The FLAG byte, which delimits frames (R60). -/
abbrev Wire.flag : Byte := 0x7E#8

/-- The ESC byte, which starts an escape pair (R60). -/
abbrev Wire.esc : Byte := 0x7D#8

/-- The successor that makes an escape pair stand for FLAG (R61). -/
abbrev Wire.escFlagSucc : Byte := 0x5E#8

/-- The successor that makes an escape pair stand for ESC (R61). -/
abbrev Wire.escEscSucc : Byte := 0x5D#8

/-- The parameter of an instance: `MAX_PAYLOAD`, the largest payload length in bytes that the receiver and the
decoder accept; `none` is no bound (R6, D8; log 6). -/
structure Config where
  maxPayload : Option Nat
  deriving DecidableEq, Repr

end Sys2Proof
end

