-- ==== Sys2Proof/Syntax.lean ====
section
/-! DEFINITION. The instructions: one constructor for each row of spec/opcode_table.json (4 commands, 6 frame
types, 5 stuffed-region symbols), and the Frame record that ENCODE takes (00_scope.md R12). -/

namespace Sys2Proof

/-- A Frame: address, control, payload. Its checksums are derived and not stored (R12). -/
structure Frame where
  addr    : Byte
  ctrl    : Byte
  payload : List Byte
  deriving DecidableEq, Repr

/-- The three classes of a control byte (R72). -/
inductive FrameClass where
  | supervisory
  | info
  | unassigned
  deriving DecidableEq, Repr

/-- The units of the hardware that run commands (R20). -/
inductive HwUnit where
  | tx
  | checker
  | rx
  deriving DecidableEq, Repr

inductive Instr where
  /-- RESET, command op 00 (R83, R150). -/
  | reset
  /-- FEED, command op 01; `b` is the byte in `data[7:0]` (R83, R140). -/
  | feed (b : Byte)
  /-- ENCODE, command op 10; `f` is on the frame operand channel (R83, R100). -/
  | encode (f : Frame)
  /-- DECODE, command op 11; `raw` is on the sequence operand channel (R83, R120). -/
  | decode (raw : List Byte)
  /-- SET, control byte 00000011 (R70, R86). -/
  | set
  /-- UA, control byte 00000111 (R70, R87). -/
  | ua
  /-- DISC, control byte 00001011 (R70, R88). -/
  | disc
  /-- RR(Nr), control byte N0000101 (R70, R71, R90). -/
  | rr (nr : BitVec 1)
  /-- REJ(Nr), control byte N0000001 (R70, R71, R91). -/
  | rej (nr : BitVec 1)
  /-- I(Ns), control byte 0N000000 (R70, R71, R89). -/
  | info (ns : BitVec 1)
  /-- LIT: one byte that stands for itself (R76). -/
  | lit (b : Byte)
  /-- ESC_FLAG: `7D 5E`, literal 0x7E (R76). -/
  | escFlag
  /-- ESC_ESC: `7D 5D`, literal 0x7D (R76). -/
  | escEsc
  /-- END: `7E`, the end of the stuffed region (R76). -/
  | endSym
  /-- ESC_BAD: `7D x`, illegal (R76, R77). -/
  | escBad (x : Byte)
  deriving DecidableEq, Repr

end Sys2Proof
end

