-- ==== Sys2Proof/Machine/State.lean ====
section
/-! DEFINITION. The state of the machine: the receiver record of 10_state.md R22, the instance's parameter
(00_scope.md R6), and the host's two lists that make a run of commands (70_reset_and_hazards.md R213). -/

namespace Sys2Proof.Machine

/-- The Receiver Parse State. Codes 5, 6 and 7 are never held, so they have no constructor (R23). -/
inductive RxState where
  | start
  | flagRcv
  | addrRcv
  | ctrlRcv
  | bccRcv
  deriving DecidableEq, Repr

/-- The reasons of an Error event (R26, R180). -/
inductive Reason where
  | bccMismatch
  | checksumMismatch
  | malformed
  deriving DecidableEq, Repr

/-- The value one FEED returns (R26); `cont` is the spec's Continue. -/
inductive Event where
  | cont
  | frameReady (f : Frame)
  | error (r : Reason)
  deriving DecidableEq, Repr

/-- The reasons of a DECODE error: ChecksumMismatch and Malformed only (R120, C8). -/
inductive DecodeReason where
  | checksumMismatch
  | malformed
  deriving DecidableEq, Repr

/-- The value DECODE returns (R120). -/
inductive Verdict where
  | ok (f : Frame)
  | err (r : DecodeReason)
  deriving DecidableEq, Repr

/-- The result of a command, as a run lists it (R30, R213). RESET has none (R150). -/
inductive Result where
  | bytes (w : List Byte)
  | verdict (v : Verdict)
  | event (e : Event)
  deriving DecidableEq, Repr

/-- What the host issues: a command word with its two operand channels (R83), or the pseudo-command FEED* of
a nonempty byte sequence (R84). -/
inductive Issue where
  | command (word : CommandWord) (frame : Frame) (raw : List Byte)
  | feedStar (first : Byte) (rest : List Byte)
  deriving DecidableEq, Repr

/-- The receiver state, which is the whole architectural state of the hardware (R22). -/
structure Rx where
  state : RxState
  addr  : Byte
  ctrl  : Byte
  esc   : Bool
  buf   : List Byte
  deriving DecidableEq, Repr

/-- The machine: the receiver; the instance's parameter, which no command writes (R6, R202; log 6); what the
host has still to issue, oldest first (log 3); and the results in command order (R213; log 4). -/
structure State where
  rx      : Rx
  cfg     : Config
  pending : List Issue
  results : List Result
  deriving DecidableEq, Repr

/-- No constructor: "Nothing the host does can make the hardware fault, stop or refuse a command" (R202; log 13). -/
inductive Fault where
  deriving DecidableEq, Repr

/-- Why a step has no meaning. -/
inductive Refusal where
  /-- Raised by an arm of `exec` whose instruction has no meaning yet, with the row's mnemonic. Safe: the run
  stops. No arm raises it in this model. -/
  | notModelled (mnemonic : String)
  deriving DecidableEq, Repr

/-- The receiver after power-on or RESET (R29, R200). -/
def Rx.reset : Rx :=
  { state := .start, addr := 0x00#8, ctrl := 0x00#8, esc := false, buf := [] }

/-- An instance built with `MAX_PAYLOAD = m`, right after power-on, with nothing issued yet (R200, R201). -/
def State.powerOn (m : Option Nat) : State :=
  { rx := Rx.reset, cfg := { maxPayload := m }, pending := [], results := [] }

/-- The machine right after reset. The spec leaves `MAX_PAYLOAD` open; here it is `none` (log 6). -/
def State.reset : State := State.powerOn none

end Sys2Proof.Machine
end

