-- ==== Sys2Proof/Machine/Operands.lean ====
section
/-! DEFINITION. The operand functions of the codec: the running XOR (00_scope.md R10), the stuffing and its
reverse (40_encoder.md R101, 41_decoder.md R121), the unit that takes an instruction (10_state.md R20, R30). -/

namespace Sys2Proof.Machine

/-- `xor(s)`: the exclusive-OR of every byte, folded from 0x00 (R10, D9). -/
def xorAll (s : List Byte) : Byte := s.foldl (fun acc b => acc ^^^ b) 0x00#8

/-- BCC1, the header checksum (R12, R65). -/
def bcc1 (addr ctrl : Byte) : Byte := addr ^^^ ctrl

/-- `sym(b)`: the wire bytes of one stuffed byte (R101). -/
def sym (b : Byte) : List Byte :=
  if b = Wire.flag then [Wire.esc, Wire.escFlagSucc]
  else if b = Wire.esc then [Wire.esc, Wire.escEscSucc]
  else [b]

/-- `stuff(s)` (R101). -/
def stuff : List Byte → List Byte
  | [] => []
  | b :: s => sym b ++ stuff s

/-- `destuff(s)`; `none` is the spec's Bad (R121). -/
def destuff : List Byte → Option (List Byte)
  | [] => some []
  | b :: s =>
    if b = Wire.flag then none
    else if b = Wire.esc then
      match s with
      | [] => none
      | x :: s' =>
        if x = Wire.escFlagSucc then (destuff s').map (Wire.flag :: ·)
        else if x = Wire.escEscSucc then (destuff s').map (Wire.esc :: ·)
        else none
    else (destuff s).map (b :: ·)

/-- A payload of `n` bytes is longer than `MAX_PAYLOAD` (R78, R122 step 6). -/
def payloadTooLong (cfg : Config) (n : Nat) : Bool :=
  match cfg.maxPayload with
  | none => false
  | some m => decide (m < n)

/-- The unit a row belongs to: ENCODE is the TX unit's, DECODE the checker's; RESET, FEED and every byte that
arrives on the line are the RX unit's (R20, R30, R83). -/
def unitOf : Instr → HwUnit
  | .reset => .rx
  | .feed _ => .rx
  | .encode _ => .tx
  | .decode _ => .checker
  | .set => .rx
  | .ua => .rx
  | .disc => .rx
  | .rr _ => .rx
  | .rej _ => .rx
  | .info _ => .rx
  | .lit _ => .rx
  | .escFlag => .rx
  | .escEsc => .rx
  | .endSym => .rx
  | .escBad _ => .rx

end Sys2Proof.Machine
end

