-- ==== Sys2Proof/Machine/Flags.lean ====
section
/-! DEFINITION. What is computed from a byte or from the state as flags: the class of a control byte
(30_encoding.md R72), the validity of a Frame (R78), the status port (10_state.md R27), and the codes of events and
verdicts (60_exceptions.md R180, R181). -/

namespace Sys2Proof.Machine

/-- `class(c)`: exact match over all 8 bits (R72, D7). -/
def classOf (c : Byte) : FrameClass :=
  if c ∈ [0x03#8, 0x07#8, 0x0B#8, 0x05#8, 0x85#8, 0x01#8, 0x81#8] then .supervisory
  else if c ∈ [0x00#8, 0x40#8] then .info
  else .unassigned

/-- A valid Frame (R78). -/
abbrev Valid (cfg : Config) (f : Frame) : Prop :=
  f.addr ≠ Wire.flag ∧ classOf f.ctrl ≠ .unassigned ∧
    (classOf f.ctrl = .supervisory → f.payload = []) ∧
    payloadTooLong cfg f.payload.length = false

/-- The 3-bit code of a parse state (R23, D20). -/
def RxState.code : RxState → BitVec 3
  | .start => 0
  | .flagRcv => 1
  | .addrRcv => 2
  | .ctrlRcv => 3
  | .bccRcv => 4

/-- `rx_status`: bits 2:0 the code of the parse state, bit 3 the pending escape, bits 7:4 zero (R27). -/
def State.rxStatus (s : State) : Byte :=
  0b0000#4 ++ BitVec.ofBool s.rx.esc ++ s.rx.state.code

/-- `rx_len`: the number of destuffed bytes held (R27). -/
def State.rxLen (s : State) : Nat := s.rx.buf.length

/-- The code of an error reason; 0 is "no error" (R180, D31). -/
def Reason.code : Reason → BitVec 2
  | .bccMismatch => 1
  | .checksumMismatch => 2
  | .malformed => 3

/-- `ev_kind` (R181). -/
def Event.kind : Event → BitVec 2
  | .cont => 0
  | .frameReady _ => 1
  | .error _ => 2

/-- `ev_reason`: 0 unless the kind is Error (R181). -/
def Event.reasonCode : Event → BitVec 2
  | .cont => 0
  | .frameReady _ => 0
  | .error r => r.code

/-- `ev_addr`, `ev_ctrl` and the payload, valid only with FrameReady; `none` is "not valid" (R181). -/
def Event.frame? : Event → Option Frame
  | .cont => none
  | .frameReady f => some f
  | .error _ => none

/-- The code of a DECODE error, the same numbers as R180's table (R180, R181). -/
def DecodeReason.code : DecodeReason → BitVec 2
  | .checksumMismatch => 2
  | .malformed => 3

/-- The code of a DECODE result: 0 = Ok, 2 or 3 for its error (R181). -/
def Verdict.code : Verdict → BitVec 2
  | .ok _ => 0
  | .err r => r.code

end Sys2Proof.Machine
end

