-- ==== Sys2Proof/Machine/Ops.lean ====
section
/-! DEFINITION. The named operations of the pseudocode (00_scope.md R11): the receiver's return to Start, the
entry into an error, the delivery of a frame, the buffer write, and the handing of a result to the host. -/

namespace Sys2Proof.Machine

/-- `to_start()`: the receiver's return to Start; `addr` and `ctrl` keep their values (R141, D19). -/
def toStart (r : Rx) : Rx := { r with state := .start, esc := false, buf := [] }

/-- `rx.esc <- 0`: the escape pair is complete (R149). -/
def clearEsc (r : Rx) : Rx := { r with esc := false }

/-- Error entry, the machine's one "exception": `to_start()`, then the Error event. Nothing is saved, no
vector is taken, and the byte is consumed (R185). The return from it is the next FEED, which is taken in Start
(R186), so it needs no operation. -/
def raiseError (r : Rx) (why : Reason) : Rx × Event := (toStart r, .error why)

/-- The end of a good frame: `to_start()`, then FrameReady with the frame's contents (R26, R141). -/
def deliver (r : Rx) (payload : List Byte) : Rx × Event :=
  (toStart r, .frameReady { addr := r.addr, ctrl := r.ctrl, payload := payload })

/-- The buffer holds its `MAX_PAYLOAD + 1` bytes (R42, R43). -/
def bufFull (cfg : Config) (r : Rx) : Bool :=
  match cfg.maxPayload with
  | none => false
  | some m => r.buf.length == m + 1

/-- `append(v)`: the buffer write, or the overflow error (R43, D18). -/
def append (cfg : Config) (r : Rx) (v : Byte) : Rx × Event :=
  if bufFull cfg r then raiseError r .malformed
  else ({ r with buf := r.buf ++ [v] }, .cont)

/-- The host is handed a result (R30, R213; log 4). -/
def State.give (s : State) (x : Result) : State := { s with results := s.results ++ [x] }

/-- The state change and the event of one FEED, both in one step (R46). -/
def State.afterFeed (s : State) (out : Rx × Event) : State := { s with rx := out.1 }.give (.event out.2)

end Sys2Proof.Machine
end

