-- ==== Sys2Proof/Machine/Codec.lean ====
section
/-! DEFINITION. The TX unit (ENCODE, 40_encoder.md R100) and the checker (DECODE, 41_decoder.md R122). -/

namespace Sys2Proof.Machine

/-- The stuffed region of a frame: present in an I-frame only (R100, R103). -/
def stuffedRegion (f : Frame) : List Byte :=
  if classOf f.ctrl = .info then stuff (f.payload ++ [xorAll f.payload]) else []

/-- ENCODE's result. The header triplet is never stuffed (R100, R102). -/
def encodeFrame (f : Frame) : List Byte :=
  [Wire.flag, f.addr, f.ctrl, bcc1 f.addr f.ctrl] ++ stuffedRegion f ++ [Wire.flag]

/-- Steps 6 and 7 of DECODE, on the destuffed body: BCC2 must be there, the payload must fit, and its
checksum must agree (R122). -/
def checkPayload (cfg : Config) (a c : Byte) (d : List Byte) : Verdict :=
  match d.getLast? with
  | none => .err .malformed
  | some b2 =>
    if payloadTooLong cfg (d.length - 1) then .err .malformed
    else if xorAll d.dropLast = b2 then .ok { addr := a, ctrl := c, payload := d.dropLast }
    else .err .checksumMismatch

/-- Steps 4 to 7 of DECODE: the class, then the body (R122). -/
def checkBody (cfg : Config) (a c : Byte) (body : List Byte) : Verdict :=
  match classOf c with
  | .unassigned => .err .malformed
  | .supervisory =>
    if body = [] then .ok { addr := a, ctrl := c, payload := [] } else .err .malformed
  | .info =>
    match destuff body with
    | none => .err .malformed
    | some d => checkPayload cfg a c d

/-- Steps 2 and 3 of DECODE: the header checksum, then the address (R122). -/
def checkHeader (cfg : Config) (a c b1 : Byte) (body : List Byte) : Verdict :=
  if b1 ≠ bcc1 a c then .err .checksumMismatch
  else if a = Wire.flag then .err .malformed
  else checkBody cfg a c body

/-- DECODE's result: step 1 is the framing (R122, R184). `raw[4 .. n-2]` is the body. -/
def decodeFrame (cfg : Config) (raw : List Byte) : Verdict :=
  if raw.length < 5 ∨ raw.head? ≠ some Wire.flag ∨ raw.getLast? ≠ some Wire.flag then .err .malformed
  else checkHeader cfg (raw.getD 1 0) (raw.getD 2 0) (raw.getD 3 0) (raw.drop 4).dropLast

/-- ENCODE: no state of the hardware is read or written (R5, R100). -/
def execEncode (f : Frame) (s : State) : Host.Outcome State Fault Refusal :=
  .next (s.give (.bytes (encodeFrame f)))

/-- DECODE: no state of the hardware but the instance's parameter is read, and none is written (R5, R120). -/
def execDecode (raw : List Byte) (s : State) : Host.Outcome State Fault Refusal :=
  .next (s.give (.verdict (decodeFrame s.cfg raw)))

end Sys2Proof.Machine
end

