-- ==== Sys2Proof/WellFormed.lean ====
section
/-! DEFINITION. Which terms of `Instr` stand for words of the hardware (30_encoding.md R76: the exclusions of
LIT and ESC_BAD; every other row admits every operand, R83 and R70). -/

namespace Sys2Proof

/-- The literal byte of LIT is neither FLAG nor ESC, and the successor of ESC_BAD is neither legal successor
(R76). ENCODE is total over every Frame and DECODE over every sequence (R100, R120), so they have no check. -/
def Instr.wellFormed : Instr → Bool
  | .reset => true
  | .feed _ => true
  | .encode _ => true
  | .decode _ => true
  | .set => true
  | .ua => true
  | .disc => true
  | .rr _ => true
  | .rej _ => true
  | .info _ => true
  | .lit b => b != Wire.flag && b != Wire.esc
  | .escFlag => true
  | .escEsc => true
  | .endSym => true
  | .escBad x => x != Wire.escFlagSucc && x != Wire.escEscSucc

end Sys2Proof
end

