-- ==== Sys2Proof/Decode.lean ====
section
/-! DEFINITION. The decoder, total on every word and byte sequence and rejecting by name, and the encoder, both
written from the encoding tables of 30_encoding.md: R83 (command words), R70 (control bytes), R76 (symbols). -/

namespace Sys2Proof

/-- Why a word stands for no row of the opcode table. No command word is rejected (R83). -/
inductive Reject where
  /-- The control byte is of class Unassigned (R73). -/
  | unassignedControl (c : Byte)
  /-- There is no byte to read a symbol from. -/
  | noSymbol
  /-- ESC is the last byte, so its symbol has no second byte (R77 (b)). -/
  | truncatedEscape
  /-- Bytes are left over after one symbol. -/
  | trailingBytes
  deriving DecidableEq, Repr

/-- The words of one row: a command word with its two operand channels, a control byte, or the wire bytes of
a symbol. -/
inductive Encoded where
  | command (word : CommandWord) (frame : Frame) (raw : List Byte)
  | control (c : Byte)
  | symbol (bytes : List Byte)
  deriving DecidableEq, Repr

/-- An operand channel that carries nothing: every byte zero and every sequence empty (log 10). -/
abbrev Frame.zero : Frame := { addr := 0x00#8, ctrl := 0x00#8, payload := [] }

/-! ### Decoder -/

/-- `op[9:8]` selects the command and `data[7:0]` is the FEED byte; RESET, ENCODE and DECODE ignore the data
bits (R83). -/
def decodeCommand (word : CommandWord) (frame : Frame) (raw : List Byte) : Instr :=
  if word.extractLsb' 8 2 = 0b00#2 then .reset
  else if word.extractLsb' 8 2 = 0b01#2 then .feed (word.extractLsb' 0 8)
  else if word.extractLsb' 8 2 = 0b10#2 then .encode frame
  else .decode raw

/-- The control-byte code table, row by row under each row's mask (R70); `Nr = C[7]`, `Ns = C[6]` (R71). -/
def decodeControl (c : Byte) : Except Reject Instr :=
  if c &&& 0xFF#8 = 0x03#8 then .ok .set
  else if c &&& 0xFF#8 = 0x07#8 then .ok .ua
  else if c &&& 0xFF#8 = 0x0B#8 then .ok .disc
  else if c &&& 0x7F#8 = 0x05#8 then .ok (.rr (c.extractLsb' 7 1))
  else if c &&& 0x7F#8 = 0x01#8 then .ok (.rej (c.extractLsb' 7 1))
  else if c &&& 0xBF#8 = 0x00#8 then .ok (.info (c.extractLsb' 6 1))
  else .error (.unassignedControl c)

/-- One symbol is read from its first byte: ESC means a 2-byte symbol, any other byte a 1-byte symbol (R76).
The bytes after the symbol are returned with it. -/
def decodeSymbol : List Byte → Except Reject (Instr × List Byte)
  | [] => .error .noSymbol
  | b :: rest =>
    if b = Wire.esc then
      match rest with
      | [] => .error .truncatedEscape
      | x :: rest' =>
        if x = Wire.escFlagSucc then .ok (.escFlag, rest')
        else if x = Wire.escEscSucc then .ok (.escEsc, rest')
        else .ok (.escBad x, rest')
    else if b = Wire.flag then .ok (.endSym, rest)
    else .ok (.lit b, rest)

/-- The decoder over the words of one row. -/
def decode : Encoded → Except Reject Instr
  | .command word frame raw => .ok (decodeCommand word frame raw)
  | .control c => decodeControl c
  | .symbol bytes =>
    match decodeSymbol bytes with
    | .error e => .error e
    | .ok (i, []) => .ok i
    | .ok (_, _ :: _) => .error .trailingBytes

/-! ### Encoder -/

/-- A command word from its fields (R83). -/
def commandWord (op : BitVec 2) (data : Byte) : CommandWord := op ++ data

/-- The words of an instruction. Ignored data bits are written as zero (R83; log 11). -/
def encode : Instr → Encoded
  | .reset => .command (commandWord 0b00#2 0x00#8) Frame.zero []
  | .feed b => .command (commandWord 0b01#2 b) Frame.zero []
  | .encode f => .command (commandWord 0b10#2 0x00#8) f []
  | .decode raw => .command (commandWord 0b11#2 0x00#8) Frame.zero raw
  | .set => .control 0x03#8
  | .ua => .control 0x07#8
  | .disc => .control 0x0B#8
  | .rr nr => .control (nr ++ 0b0000101#7)
  | .rej nr => .control (nr ++ 0b0000001#7)
  | .info ns => .control (0b0#1 ++ ns ++ 0b000000#6)
  | .lit b => .symbol [b]
  | .escFlag => .symbol [Wire.esc, Wire.escFlagSucc]
  | .escEsc => .symbol [Wire.esc, Wire.escEscSucc]
  | .endSym => .symbol [Wire.flag]
  | .escBad x => .symbol [Wire.esc, x]

/-- The bytes that reach the RX unit when a frame-type row or a symbol row is run, and for FEED its data byte;
the other commands carry no received byte (R76, R83, R144; log 1). -/
def wireBytes (i : Instr) : List Byte :=
  match encode i with
  | .command word _ _ => if word.extractLsb' 8 2 = 0b01#2 then [word.extractLsb' 0 8] else []
  | .control c => [c]
  | .symbol bytes => bytes

/-! ### The opcode table's numbering -/

/-- The words that the table's number `w` of `nbits` bits stands for (log 9): one byte is a control byte where
R70 assigns it and a symbol elsewhere; two bytes are a command word where the number fits 10 bits, and
elsewhere a symbol whose first wire byte is bits 15..8, as the table writes it. -/
def tableWord (nbits w : Nat) : Option Encoded :=
  if nbits ≤ 8 then
    if w < 256 then
      match decodeControl (BitVec.ofNat 8 w) with
      | .ok _ => some (.control (BitVec.ofNat 8 w))
      | .error _ => some (.symbol [BitVec.ofNat 8 w])
    else none
  else if nbits ≤ 16 then
    if w < 1024 then some (.command (BitVec.ofNat 10 w) Frame.zero [])
    else if w < 65536 then some (.symbol [BitVec.ofNat 8 (w / 256), BitVec.ofNat 8 w])
    else none
  else none

/-- The instruction the decoder reads from the table's number `w` of `nbits` bits. -/
def decodeTableWord (nbits w : Nat) : Option Instr :=
  match tableWord nbits w with
  | none => none
  | some e => (decode e).toOption

end Sys2Proof
end

