-- ==== Sys2Proof/Machine/Receiver.lean ====
section
/-! DEFINITION. The RX unit: FEED, with one function per rule R142 to R149 of 42_receiver.md, and RESET (R150). -/

namespace Sys2Proof.Machine

/-- State Start (R142). -/
def feedStart (r : Rx) (b : Byte) : Rx × Event :=
  if b = Wire.flag then ({ r with state := .flagRcv }, .cont) else (r, .cont)

/-- State FlagRcv (R143). -/
def feedFlagRcv (r : Rx) (b : Byte) : Rx × Event :=
  if b = Wire.flag then (r, .cont) else ({ r with addr := b, state := .addrRcv }, .cont)

/-- State AddrRcv: every byte is the control byte, FLAG and ESC too (R144, C3). -/
def feedAddrRcv (r : Rx) (b : Byte) : Rx × Event :=
  ({ r with ctrl := b, state := .ctrlRcv }, .cont)

/-- State CtrlRcv: the header checksum; the match is tested before anything else (R145, C4). -/
def feedCtrlRcv (r : Rx) (b : Byte) : Rx × Event :=
  if b = bcc1 r.addr r.ctrl then ({ r with state := .bccRcv, esc := false, buf := [] }, .cont)
  else raiseError r .bccMismatch

/-- State BccRcv, supervisory: the closing flag (R146). -/
def feedSupervisory (r : Rx) (b : Byte) : Rx × Event :=
  if b = Wire.flag then deliver r [] else raiseError r .malformed

/-- State BccRcv, unassigned: every byte ends the frame (R147). -/
def feedUnassigned (r : Rx) : Rx × Event := raiseError r .malformed

/-- The closing flag of an I-frame: the candidate payload is all but the last byte held, the candidate BCC2
the last (R44, R148, D17). -/
def closeInfo (r : Rx) : Rx × Event :=
  match r.buf.getLast? with
  | none => raiseError r .malformed
  | some b2 =>
    if xorAll r.buf.dropLast = b2 then deliver r r.buf.dropLast
    else raiseError r .checksumMismatch

/-- State BccRcv, info, no escape pending: the stuffed region (R148, C5). -/
def feedRegion (cfg : Config) (r : Rx) (b : Byte) : Rx × Event :=
  if b = Wire.flag then closeInfo r
  else if b = Wire.esc then ({ r with esc := true }, .cont)
  else append cfg r b

/-- State BccRcv, info, escape pending: the successor (R149, D16). -/
def feedSuccessor (cfg : Config) (r : Rx) (b : Byte) : Rx × Event :=
  if b = Wire.escFlagSucc then append cfg (clearEsc r) Wire.flag
  else if b = Wire.escEscSucc then append cfg (clearEsc r) Wire.esc
  else raiseError r .malformed

/-- FEED's choice of the arm (R140). -/
def rxFeed (cfg : Config) (r : Rx) (b : Byte) : Rx × Event :=
  match r.state with
  | .start => feedStart r b
  | .flagRcv => feedFlagRcv r b
  | .addrRcv => feedAddrRcv r b
  | .ctrlRcv => feedCtrlRcv r b
  | .bccRcv =>
    match classOf r.ctrl with
    | .supervisory => feedSupervisory r b
    | .unassigned => feedUnassigned r
    | .info => if r.esc then feedSuccessor cfg r b else feedRegion cfg r b

/-- The RX unit takes one byte and its event is handed to the host (R140, R203). -/
def takeByte (s : State) (b : Byte) : State := s.afterFeed (rxFeed s.cfg s.rx b)

/-- The RX unit takes the bytes in index order, one event each (R40, R84). -/
def takeBytes (s : State) (bs : List Byte) : State := bs.foldl takeByte s

/-- FEED (R140). -/
def execFeed (b : Byte) (s : State) : Host.Outcome State Fault Refusal := .next (takeByte s b)

/-- RESET: every field of `rx`; no event, and no other part of the state (R150). -/
def execReset (s : State) : Host.Outcome State Fault Refusal :=
  .next { s with rx := Rx.reset }

end Sys2Proof.Machine
end

