-- ==== Sys2Proof/Machine/FrameTypes.lean ====
section
/-! DEFINITION. The frame-type rows. "The hardware gives it no meaning beyond its class" (30_encoding.md R86): to run
one is for the RX unit to take its control byte, which in AddrRcv latches it as the frame's type (42_receiver.md
R144) and whose class selects the arm of the frame's later bytes (R140; log 1). -/

namespace Sys2Proof.Machine

/-- SET (R86). -/
def execSet (s : State) : Host.Outcome State Fault Refusal := .next (takeBytes s (wireBytes .set))

/-- UA (R87). -/
def execUa (s : State) : Host.Outcome State Fault Refusal := .next (takeBytes s (wireBytes .ua))

/-- DISC (R88). -/
def execDisc (s : State) : Host.Outcome State Fault Refusal := .next (takeBytes s (wireBytes .disc))

/-- RR(Nr) (R90). -/
def execRr (nr : BitVec 1) (s : State) : Host.Outcome State Fault Refusal :=
  .next (takeBytes s (wireBytes (.rr nr)))

/-- REJ(Nr) (R91). -/
def execRej (nr : BitVec 1) (s : State) : Host.Outcome State Fault Refusal :=
  .next (takeBytes s (wireBytes (.rej nr)))

/-- I(Ns) (R89). -/
def execInfo (ns : BitVec 1) (s : State) : Host.Outcome State Fault Refusal :=
  .next (takeBytes s (wireBytes (.info ns)))

end Sys2Proof.Machine
end

