-- ==== Sys2Proof/Machine/Symbols.lean ====
section
/-! DEFINITION. The symbols of the stuffed region (30_encoding.md R76): to run one is for the RX unit to take its
wire bytes in order, each with its event (42_receiver.md R148, R149; log 1). -/

namespace Sys2Proof.Machine

/-- LIT b. -/
def execLit (b : Byte) (s : State) : Host.Outcome State Fault Refusal :=
  .next (takeBytes s (wireBytes (.lit b)))

/-- ESC_FLAG. -/
def execEscFlag (s : State) : Host.Outcome State Fault Refusal := .next (takeBytes s (wireBytes .escFlag))

/-- ESC_ESC. -/
def execEscEsc (s : State) : Host.Outcome State Fault Refusal := .next (takeBytes s (wireBytes .escEsc))

/-- END. -/
def execEnd (s : State) : Host.Outcome State Fault Refusal := .next (takeBytes s (wireBytes .endSym))

/-- ESC_BAD x. -/
def execEscBad (x : Byte) (s : State) : Host.Outcome State Fault Refusal :=
  .next (takeBytes s (wireBytes (.escBad x)))

end Sys2Proof.Machine
end

