-- ==== Sys2Proof/Machine/Dispatch.lean ====
section
/-! DEFINITION. One arm per constructor of Instr. -/

namespace Sys2Proof.Machine

def exec (i : Instr) (s : State) : Host.Outcome State Fault Refusal :=
  match i with
  | .reset => Sys2Proof.Machine.execReset s
  | .feed b => Sys2Proof.Machine.execFeed b s
  | .encode f => Sys2Proof.Machine.execEncode f s
  | .decode raw => Sys2Proof.Machine.execDecode raw s
  | .set => Sys2Proof.Machine.execSet s
  | .ua => Sys2Proof.Machine.execUa s
  | .disc => Sys2Proof.Machine.execDisc s
  | .rr nr => Sys2Proof.Machine.execRr nr s
  | .rej nr => Sys2Proof.Machine.execRej nr s
  | .info ns => Sys2Proof.Machine.execInfo ns s
  | .lit b => Sys2Proof.Machine.execLit b s
  | .escFlag => Sys2Proof.Machine.execEscFlag s
  | .escEsc => Sys2Proof.Machine.execEscEsc s
  | .endSym => Sys2Proof.Machine.execEnd s
  | .escBad x => Sys2Proof.Machine.execEscBad x s

end Sys2Proof.Machine
end

