-- ==== Sys2Proof/Machine/Fetch.lean ====
section
/-! DEFINITION. How a step comes to its instruction. The hardware fetches nothing (20_memory.md R50): the host issues
commands (10_state.md R30) and byte streams FEED* (30_encoding.md R84). -/

namespace Sys2Proof.Machine

/-- The stuffed region is open and no escape is pending, so the next byte begins a symbol (R76, R140). -/
def inRegion (r : Rx) : Bool := r.state == .bccRcv && classOf r.ctrl == .info && !r.esc

/-- The next row of a FEED* stream, read where the receiver stands (log 2): a control byte in AddrRcv where R70
assigns it, a symbol in the stuffed region where it is whole, and one FEED of one byte everywhere else. -/
def streamRow (r : Rx) (b : Byte) (rest : List Byte) : Instr × List Byte :=
  if r.state = .addrRcv then
    match decodeControl b with
    | .ok i => (i, rest)
    | .error _ => (.feed b, rest)
  else if inRegion r then
    match decodeSymbol (b :: rest) with
    | .ok out => out
    | .error _ => (.feed b, rest)
  else (.feed b, rest)

/-- What is left of a FEED* goes before the rest. -/
def resumeStream (rest : List Byte) (p : List Issue) : List Issue :=
  match rest with
  | [] => p
  | b :: bs => .feedStar b bs :: p

/-- The next instruction, and the state with it taken off what the host has still to issue; `none` when the
host issues nothing. -/
def fetch (s : State) : Option (Instr × State) :=
  match s.pending with
  | [] => none
  | .command word frame raw :: p => some (decodeCommand word frame raw, { s with pending := p })
  | .feedStar b rest :: p =>
    some ((streamRow s.rx b rest).1, { s with pending := resumeStream (streamRow s.rx b rest).2 p })

/-- The host issues `e` next, and the receiver stands where that row is read: AddrRcv for a control byte, the
open stuffed region of an I-frame for a symbol, anywhere for a command (log 8). -/
def issueNext (s : State) (e : Encoded) : State :=
  match e with
  | .command word frame raw => { s with pending := .command word frame raw :: s.pending }
  | .control c => { s with rx := { s.rx with state := .addrRcv }, pending := .feedStar c [] :: s.pending }
  | .symbol [] => s
  | .symbol (b :: bs) =>
    { s with rx := { s.rx with state := .bccRcv, ctrl := 0x00#8, esc := false },
             pending := .feedStar b bs :: s.pending }

end Sys2Proof.Machine
end

