-- ==== Sys2Proof/Machine/Step.lean ====
section
/-! DEFINITION. One step: the next instruction the host issues is run. -/

namespace Sys2Proof.Machine

/-- A step runs the next instruction; when the host issues nothing, nothing changes (70_reset_and_hazards.md R208;
log 5). -/
def step (s : State) : Host.Outcome State Fault Refusal :=
  match fetch s with
  | none => .next s
  | some (i, s') => exec i s'

/-- The state whose next step runs the instruction that the opcode table numbers `w` (log 7, log 8). -/
def State.withFetchWord (s : State) (nbits w : Nat) : State :=
  match tableWord nbits w with
  | none => s
  | some e => issueNext s e

end Sys2Proof.Machine
end

