-- ==== Sys2Proof/Safety.lean ====
section
/-! DEFINITION. The terms the statements use: runs of commands, the events of a run, and the invariants of a safe
receiver (10_state.md R24). -/

namespace Sys2Proof.Machine

/-- The commands run one after the other (R48, R213); a stop ends the run. -/
def execAll : List Instr → State → Host.Outcome State Fault Refusal
  | [], s => .next s
  | i :: is, s =>
    match exec i s with
    | .next t => execAll is t
    | .fault r => .fault r
    | .refused r => .refused r

/-- `FEED* bs` as the FEEDs it stands for (R84). -/
def feeds (bs : List Byte) : List Instr := bs.map .feed

/-- The state after one FEED that leaves the receiver as `r` and returns `e`: nothing else changes. -/
def State.fed (s : State) (r : Rx) (e : Event) : State :=
  { s with rx := r, results := s.results ++ [.event e] }

/-- The buffer holds `MAX_PAYLOAD + 1` bytes (R43). -/
abbrev State.Full (s : State) : Prop := ∃ m, s.cfg.maxPayload = some m ∧ s.rx.buf.length = m + 1

/-- The stuffed region of an I-frame is open (R140): what comes next is a symbol, or a successor if `esc`. -/
abbrev State.InRegion (s : State) : Prop := s.rx.state = .bccRcv ∧ classOf s.rx.ctrl = .info

/-- The results of `n` FEEDs that each return Continue. -/
def conts (n : Nat) : List Result := List.replicate n (.event .cont)

/-- The events other than Continue, in order. -/
def notable : List Result → List Event
  | [] => []
  | .event (.frameReady f) :: rs => .frameReady f :: notable rs
  | .event (.error r) :: rs => .error r :: notable rs
  | .event .cont :: rs => notable rs
  | .bytes _ :: rs => notable rs
  | .verdict _ :: rs => notable rs

/-- The events of a run, in order: the RX unit's results. -/
def eventsOf : List Result → List Event
  | [] => []
  | .event e :: rs => e :: eventsOf rs
  | .bytes _ :: rs => eventsOf rs
  | .verdict _ :: rs => eventsOf rs

/-- The four invariants of R24. -/
structure Rx.Inv (cfg : Config) (r : Rx) : Prop where
  esc_in_region : r.esc = true → r.state = .bccRcv ∧ classOf r.ctrl = .info
  buf_in_region : r.buf ≠ [] → r.state = .bccRcv ∧ classOf r.ctrl = .info
  buf_bounded   : ∀ m, cfg.maxPayload = some m → r.buf.length ≤ m + 1
  idle_clear    : r.state = .start ∨ r.state = .flagRcv → r.esc = false ∧ r.buf = []

/-- R24 on the machine's state. -/
abbrev State.Inv (s : State) : Prop := Rx.Inv s.cfg s.rx

/-- R24, an address register that never holds FLAG (R143), and only valid frames among those delivered (R26, R78). -/
structure State.Sound (s : State) : Prop where
  inv        : s.Inv
  addr_ne    : s.rx.addr ≠ Wire.flag
  delivered  : ∀ f, Result.event (.frameReady f) ∈ s.results → Valid s.cfg f

/-- Two receivers that differ at most where R25 says that no rule reads: the address and the control byte in
Start and FlagRcv, the control byte in AddrRcv. -/
structure Rx.Agree (r r' : Rx) : Prop where
  state : r.state = r'.state
  esc   : r.esc = r'.esc
  buf   : r.buf = r'.buf
  addr  : r.state ≠ .start → r.state ≠ .flagRcv → r.addr = r'.addr
  ctrl  : r.state = .ctrlRcv ∨ r.state = .bccRcv → r.ctrl = r'.ctrl

end Sys2Proof.Machine
end

