-- ==== Sys2Proof/Certificates/Slice0/Obligations.lean ====
section
/-! DEFINITION. The statements for the provers. Each says its rule of spec/ in terms of `decode`, `encode`, `exec` and
`step`; a docstring names the log entry where a clause is the model's own choice. -/

open Sys2Proof Sys2Proof.Machine

/-! ### Words -/

/-- R83: `op[9:8]` selects the command, `data[7:0]` is the FEED byte and is ignored by the other three, and each
command belongs to its unit. -/
def Obligations.CommandWordSelectsCommand : Prop :=
  ∀ (w : CommandWord) (f : Frame) (raw : List Byte),
    (w.extractLsb' 8 2 = 0b00#2 → decodeCommand w f raw = .reset ∧ unitOf (decodeCommand w f raw) = .rx) ∧
    (w.extractLsb' 8 2 = 0b01#2 → decodeCommand w f raw = .feed (w.extractLsb' 0 8) ∧
      unitOf (decodeCommand w f raw) = .rx) ∧
    (w.extractLsb' 8 2 = 0b10#2 → decodeCommand w f raw = .encode f ∧ unitOf (decodeCommand w f raw) = .tx) ∧
    (w.extractLsb' 8 2 = 0b11#2 → decodeCommand w f raw = .decode raw ∧
      unitOf (decodeCommand w f raw) = .checker)

/-- R70: the control-byte code table. Every code of every row has its frame type and class; under the row's mask a
byte gives the row's match value exactly when it decodes to that row, so that no byte matches two rows, which the
last clauses also say of the masks and match values alone; the nine codes are distinct; none is FLAG or ESC. -/
def Obligations.ControlByteTable : Prop :=
  (decodeControl 0x03#8 = .ok .set ∧ classOf 0x03#8 = .supervisory) ∧
  (decodeControl 0x07#8 = .ok .ua ∧ classOf 0x07#8 = .supervisory) ∧
  (decodeControl 0x0B#8 = .ok .disc ∧ classOf 0x0B#8 = .supervisory) ∧
  (decodeControl 0x05#8 = .ok (.rr 0) ∧ classOf 0x05#8 = .supervisory) ∧
  (decodeControl 0x85#8 = .ok (.rr 1) ∧ classOf 0x85#8 = .supervisory) ∧
  (decodeControl 0x01#8 = .ok (.rej 0) ∧ classOf 0x01#8 = .supervisory) ∧
  (decodeControl 0x81#8 = .ok (.rej 1) ∧ classOf 0x81#8 = .supervisory) ∧
  (decodeControl 0x00#8 = .ok (.info 0) ∧ classOf 0x00#8 = .info) ∧
  (decodeControl 0x40#8 = .ok (.info 1) ∧ classOf 0x40#8 = .info) ∧
  (∀ c : Byte,
    (c &&& 0xFF#8 = 0x03#8 ↔ decodeControl c = .ok .set) ∧
    (c &&& 0xFF#8 = 0x07#8 ↔ decodeControl c = .ok .ua) ∧
    (c &&& 0xFF#8 = 0x0B#8 ↔ decodeControl c = .ok .disc) ∧
    (c &&& 0x7F#8 = 0x05#8 ↔ decodeControl c = .ok (.rr (c.extractLsb' 7 1))) ∧
    (c &&& 0x7F#8 = 0x01#8 ↔ decodeControl c = .ok (.rej (c.extractLsb' 7 1))) ∧
    (c &&& 0xBF#8 = 0x00#8 ↔ decodeControl c = .ok (.info (c.extractLsb' 6 1)))) ∧
  (∀ c : Byte, List.Pairwise (fun r q : Byte × Byte => ¬ (c &&& r.1 = r.2 ∧ c &&& q.1 = q.2))
    [(0xFF#8, 0x03#8), (0xFF#8, 0x07#8), (0xFF#8, 0x0B#8), (0x7F#8, 0x05#8), (0x7F#8, 0x01#8), (0xBF#8, 0x00#8)]) ∧
  List.Nodup [0x03#8, 0x07#8, 0x0B#8, 0x05#8, 0x85#8, 0x01#8, 0x81#8, 0x00#8, 0x40#8] ∧
  decodeControl 0x7E#8 = .error (.unassignedControl 0x7E#8) ∧
  decodeControl 0x7D#8 = .error (.unassignedControl 0x7D#8)

/-- R72: the class of a control byte is an exact match over all 8 bits. -/
def Obligations.ClassIsExactMatch : Prop :=
  ∀ c : Byte,
    (classOf c = .supervisory ↔ c = 0x03#8 ∨ c = 0x07#8 ∨ c = 0x0B#8 ∨ c = 0x05#8 ∨ c = 0x85#8 ∨
      c = 0x01#8 ∨ c = 0x81#8) ∧
    (classOf c = .info ↔ c = 0x00#8 ∨ c = 0x40#8) ∧
    (classOf c = .unassigned ↔ c ≠ 0x03#8 ∧ c ≠ 0x07#8 ∧ c ≠ 0x0B#8 ∧ c ≠ 0x05#8 ∧ c ≠ 0x85#8 ∧
      c ≠ 0x01#8 ∧ c ≠ 0x81#8 ∧ c ≠ 0x00#8 ∧ c ≠ 0x40#8)

/-- R73, R70: the decoder rejects a control byte exactly when its class is Unassigned, and by that name. -/
def Obligations.ControlRejectedIffUnassigned : Prop :=
  ∀ c : Byte, (classOf c = .unassigned ↔ decodeControl c = .error (.unassignedControl c)) ∧
    (classOf c ≠ .unassigned ↔ ∃ i, decodeControl c = .ok i ∧ encode i = .control c)

/-- R76: a symbol is read from its first byte, with its length and the bytes after it. -/
def Obligations.SymbolsAreReadFromTheirFirstByte : Prop :=
  ∀ (rest : List Byte) (b x : Byte),
    (b ≠ 0x7E#8 → b ≠ 0x7D#8 → decodeSymbol (b :: rest) = .ok (.lit b, rest)) ∧
    decodeSymbol (0x7D#8 :: 0x5E#8 :: rest) = .ok (.escFlag, rest) ∧
    decodeSymbol (0x7D#8 :: 0x5D#8 :: rest) = .ok (.escEsc, rest) ∧
    decodeSymbol (0x7E#8 :: rest) = .ok (.endSym, rest) ∧
    (x ≠ 0x5E#8 → x ≠ 0x5D#8 → decodeSymbol (0x7D#8 :: x :: rest) = .ok (.escBad x, rest)) ∧
    decodeSymbol [0x7D#8] = .error .truncatedEscape ∧ decodeSymbol [] = .error .noSymbol

/-- Decode and encode agree on every well-formed instruction, with every operand at every value. -/
def Obligations.DecodeOfEncodeIsIdentity : Prop :=
  ∀ i : Instr, i.wellFormed = true → decode (encode i) = .ok i

/-- What the decoder accepts is well-formed. A control byte and a symbol encode back to themselves. A command encodes
back up to what it ignores: its `op` comes back, and so do FEED's whole word, ENCODE's frame and DECODE's sequence,
while the data bits of RESET, ENCODE and DECODE and the channels a command does not use need not (R83 ignores the
bits; that the instruction does not keep them is the model's reading, log 11; the unused channels, log 10). -/
def Obligations.EncodeOfDecodeUpToIgnoredBits : Prop :=
  (∀ c i, decode (.control c) = .ok i → i.wellFormed = true ∧ encode i = .control c) ∧
  (∀ bs i, decode (.symbol bs) = .ok i → i.wellFormed = true ∧ encode i = .symbol bs) ∧
  (∀ w f raw, (decodeCommand w f raw).wellFormed = true ∧
    ∃ w' f' raw', encode (decodeCommand w f raw) = .command w' f' raw' ∧
      w'.extractLsb' 8 2 = w.extractLsb' 8 2 ∧
      (w.extractLsb' 8 2 = 0b01#2 → w' = w) ∧
      (w.extractLsb' 8 2 = 0b10#2 → f' = f) ∧
      (w.extractLsb' 8 2 = 0b11#2 → raw' = raw))

/-- Words written out from the spec's encodings decode to the instructions they stand for (R83, R86 to R91, R76). -/
def Obligations.WordsWrittenFromTheSpecDecode : Prop :=
  decode (.command 0b0010100101#10 Frame.zero []) = .ok .reset ∧
  decode (.command 0b0101111110#10 Frame.zero []) = .ok (.feed 0x7E#8) ∧
  decode (.command 0b1000000000#10 { addr := 0x03#8, ctrl := 0x40#8, payload := [0x7E#8] } []) =
    .ok (.encode { addr := 0x03#8, ctrl := 0x40#8, payload := [0x7E#8] }) ∧
  decode (.command 0b1111111111#10 Frame.zero [0x7E#8, 0x03#8]) = .ok (.decode [0x7E#8, 0x03#8]) ∧
  decode (.control 0b00000011#8) = .ok .set ∧
  decode (.control 0b10000101#8) = .ok (.rr 1) ∧
  decode (.control 0b01000000#8) = .ok (.info 1) ∧
  decode (.symbol [0b01111101#8, 0b01011110#8]) = .ok .escFlag ∧
  decode (.symbol [0b01111101#8, 0b01111110#8]) = .ok (.escBad 0x7E#8)

/-! ### Steps -/

/-- A step on a command word is `exec` of the command, with the word taken off the host's list (log 3). -/
def Obligations.StepRunsIssuedCommand : Prop :=
  ∀ (s : State) (w : CommandWord) (f : Frame) (raw : List Byte) (p : List Issue),
    s.pending = .command w f raw :: p → step s = exec (decodeCommand w f raw) { s with pending := p }

/-- A step on a FEED* stream is `exec` of the row that stands at its head where the receiver is: a control byte in
AddrRcv, a symbol in the open stuffed region, one FEED elsewhere, and one FEED where no row fits (log 2). -/
def Obligations.StepRunsStreamRow : Prop :=
  ∀ (s : State) (b : Byte) (bs : List Byte) (p : List Issue), s.pending = .feedStar b bs :: p →
    (∀ i, s.rx.state = .addrRcv → decodeControl b = .ok i →
      step s = exec i { s with pending := resumeStream bs p }) ∧
    (s.rx.state = .addrRcv → classOf b = .unassigned →
      step s = exec (.feed b) { s with pending := resumeStream bs p }) ∧
    (∀ i rest, s.InRegion → s.rx.esc = false → decodeSymbol (b :: bs) = .ok (i, rest) →
      step s = exec i { s with pending := resumeStream rest p }) ∧
    (s.InRegion → s.rx.esc = false → b = 0x7D#8 → bs = [] →
      step s = exec (.feed b) { s with pending := p }) ∧
    (s.rx.state ≠ .addrRcv → ¬ (s.InRegion ∧ s.rx.esc = false) →
      step s = exec (.feed b) { s with pending := resumeStream bs p })

/-- When the host issues nothing, a step changes nothing: a pause between two commands changes no state (R208;
log 5). -/
def Obligations.IdleStepChangesNothing : Prop :=
  ∀ s : State, s.pending = [] → step s = .next s

/-- The word the host places is the one the next step runs, and the list of issued items is left as it was (log 7,
log 8). -/
def Obligations.FetchWordRunsItsInstruction : Prop :=
  ∀ (s : State) (nbits w : Nat) (i : Instr), decodeTableWord nbits w = some i →
    ∃ r : Rx, step (s.withFetchWord nbits w) = exec i { s with rx := r } ∧
      r.addr = s.rx.addr ∧ r.buf = s.rx.buf ∧ (8 < nbits → w < 1024 → r = s.rx)

/-- No command stops the machine, for any operand in any state (R202 lets the host issue each at any time, R155 lets no
error stop the receiver; that nothing else stops it is log 13). The other clauses are about parts of the state that
are the model's own, and rest on its log: no command changes the instance's `MAX_PAYLOAD` (log 6) or the host's list
(log 3), none removes or changes a result already given (log 4), and a step with nothing to issue answers a next
state too (log 5). -/
def Obligations.EveryCommandCompletes : Prop :=
  (∀ (i : Instr) (s : State), ∃ t, exec i s = .next t ∧ t.cfg = s.cfg ∧ t.pending = s.pending ∧
    ∃ rs, t.results = s.results ++ rs) ∧
  (∀ s : State, ∃ t, step s = .next t ∧ t.cfg = s.cfg ∧ ∃ rs, t.results = s.results ++ rs)

/-! ### RESET and the receiver's arms -/

/-- R150: RESET sets every field of the receiver and gives no result. -/
def Obligations.ResetClearsReceiver : Prop :=
  ∀ s : State, exec .reset s =
    .next { s with rx := { state := .start, addr := 0x00#8, ctrl := 0x00#8, esc := false, buf := [] } }

/-- R29: the reset values, set by power-on (for every `MAX_PAYLOAD`) and by RESET. -/
def Obligations.ResetValues : Prop :=
  (∀ m, (State.powerOn m).rx.state = .start ∧ (State.powerOn m).rx.esc = false ∧
    (State.powerOn m).rx.buf = [] ∧ (State.powerOn m).rx.addr = 0x00#8 ∧
    (State.powerOn m).rx.ctrl = 0x00#8) ∧
  State.reset.rx = (State.powerOn none).rx ∧
  (∀ (s : State) (m : Option Nat), exec .reset s = .next { s with rx := (State.powerOn m).rx })

/-- R142: state Start. -/
def Obligations.FeedInStart : Prop :=
  ∀ (s : State) (b : Byte), s.rx.state = .start →
    (b = 0x7E#8 → exec (.feed b) s = .next (s.fed { s.rx with state := .flagRcv } .cont)) ∧
    (b ≠ 0x7E#8 → exec (.feed b) s = .next (s.fed s.rx .cont))

/-- R143: state FlagRcv. -/
def Obligations.FeedInFlagRcv : Prop :=
  ∀ (s : State) (b : Byte), s.rx.state = .flagRcv →
    (b = 0x7E#8 → exec (.feed b) s = .next (s.fed s.rx .cont)) ∧
    (b ≠ 0x7E#8 → exec (.feed b) s = .next (s.fed { s.rx with addr := b, state := .addrRcv } .cont))

/-- R144: state AddrRcv, for every byte. -/
def Obligations.FeedInAddrRcv : Prop :=
  ∀ (s : State) (b : Byte), s.rx.state = .addrRcv →
    exec (.feed b) s = .next (s.fed { s.rx with ctrl := b, state := .ctrlRcv } .cont)

/-- R145: state CtrlRcv, the header checksum. -/
def Obligations.FeedInCtrlRcv : Prop :=
  ∀ (s : State) (b : Byte), s.rx.state = .ctrlRcv →
    (b = s.rx.addr ^^^ s.rx.ctrl → exec (.feed b) s =
      .next (s.fed { s.rx with state := .bccRcv, esc := false, buf := [] } .cont)) ∧
    (b ≠ s.rx.addr ^^^ s.rx.ctrl → exec (.feed b) s =
      .next (s.fed { s.rx with state := .start, esc := false, buf := [] } (.error .bccMismatch)))

/-- R146: state BccRcv after a supervisory header. -/
def Obligations.FeedAfterSupervisoryHeader : Prop :=
  ∀ (s : State) (b : Byte), s.rx.state = .bccRcv → classOf s.rx.ctrl = .supervisory →
    (b = 0x7E#8 → exec (.feed b) s = .next (s.fed { s.rx with state := .start, esc := false, buf := [] }
      (.frameReady { addr := s.rx.addr, ctrl := s.rx.ctrl, payload := [] }))) ∧
    (b ≠ 0x7E#8 → exec (.feed b) s =
      .next (s.fed { s.rx with state := .start, esc := false, buf := [] } (.error .malformed)))

/-- R147: state BccRcv after an unassigned header, for every byte. -/
def Obligations.FeedAfterUnassignedHeader : Prop :=
  ∀ (s : State) (b : Byte), s.rx.state = .bccRcv → classOf s.rx.ctrl = .unassigned →
    exec (.feed b) s =
      .next (s.fed { s.rx with state := .start, esc := false, buf := [] } (.error .malformed))

/-- R148 with R43: the stuffed region, no escape pending. -/
def Obligations.FeedInStuffedRegion : Prop :=
  ∀ (s : State) (b : Byte), s.InRegion → s.rx.esc = false →
    (b = 0x7E#8 → s.rx.buf = [] → exec (.feed b) s =
      .next (s.fed { s.rx with state := .start, esc := false, buf := [] } (.error .malformed))) ∧
    (∀ p b2, b = 0x7E#8 → s.rx.buf = p ++ [b2] → xorAll p = b2 → exec (.feed b) s =
      .next (s.fed { s.rx with state := .start, esc := false, buf := [] }
        (.frameReady { addr := s.rx.addr, ctrl := s.rx.ctrl, payload := p }))) ∧
    (∀ p b2, b = 0x7E#8 → s.rx.buf = p ++ [b2] → xorAll p ≠ b2 → exec (.feed b) s =
      .next (s.fed { s.rx with state := .start, esc := false, buf := [] } (.error .checksumMismatch))) ∧
    (b = 0x7D#8 → exec (.feed b) s = .next (s.fed { s.rx with esc := true } .cont)) ∧
    (b ≠ 0x7E#8 → b ≠ 0x7D#8 → s.Full → exec (.feed b) s =
      .next (s.fed { s.rx with state := .start, esc := false, buf := [] } (.error .malformed))) ∧
    (b ≠ 0x7E#8 → b ≠ 0x7D#8 → ¬ s.Full → exec (.feed b) s =
      .next (s.fed { s.rx with buf := s.rx.buf ++ [b] } .cont))

/-- R149 with R43: the successor of an escape. -/
def Obligations.FeedAfterEscape : Prop :=
  ∀ (s : State) (b : Byte), s.InRegion → s.rx.esc = true →
    (b = 0x5E#8 → ¬ s.Full → exec (.feed b) s =
      .next (s.fed { s.rx with esc := false, buf := s.rx.buf ++ [0x7E#8] } .cont)) ∧
    (b = 0x5D#8 → ¬ s.Full → exec (.feed b) s =
      .next (s.fed { s.rx with esc := false, buf := s.rx.buf ++ [0x7D#8] } .cont)) ∧
    (b = 0x5E#8 ∨ b = 0x5D#8 → s.Full → exec (.feed b) s =
      .next (s.fed { s.rx with state := .start, esc := false, buf := [] } (.error .malformed))) ∧
    (b ≠ 0x5E#8 → b ≠ 0x5D#8 → exec (.feed b) s =
      .next (s.fed { s.rx with state := .start, esc := false, buf := [] } (.error .malformed)))

/-- R43: the buffer write, for every byte in every receiver state. -/
def Obligations.AppendWritesOrOverflows : Prop :=
  ∀ (cfg : Config) (r : Rx) (v : Byte),
    (∀ m, cfg.maxPayload = some m → r.buf.length = m + 1 → append cfg r v =
      ({ r with state := .start, esc := false, buf := [] }, .error .malformed)) ∧
    ((∀ m, cfg.maxPayload = some m → r.buf.length ≠ m + 1) → append cfg r v =
      ({ r with buf := r.buf ++ [v] }, .cont))

/-- R151: one event per FEED, what a FrameReady or an Error leaves, and that a Continue does not return to Start. -/
def Obligations.OneEventPerFeed : Prop :=
  ∀ (s : State) (b : Byte), ∃ r e, exec (.feed b) s = .next (s.fed r e) ∧
    (e ≠ .cont → r.state = .start ∧ r.esc = false ∧ r.buf = []) ∧
    (e = .cont → r.state = .start → s.rx.state = .start)

/-- R185: an Error event is returned by the FEED of the byte that caused it, leaves the receiver in Start with the
escape and the buffer cleared, keeps the address and the control byte, and changes nothing else. -/
def Obligations.ErrorEntry : Prop :=
  ∀ (s t : State) (b : Byte) (why : Reason), exec (.feed b) s = .next t →
    t.results = s.results ++ [.event (.error why)] →
    t = { s with rx := { state := .start, addr := s.rx.addr, ctrl := s.rx.ctrl, esc := false, buf := [] },
                 results := s.results ++ [.event (.error why)] }

/-! ### Frame-type rows and symbol rows -/

/-- A frame-type row in AddrRcv latches its control byte (R144, R86 to R91; log 1). -/
def Obligations.FrameTypeLatchesControl : Prop :=
  ∀ s : State, s.rx.state = .addrRcv →
    exec .set s = .next (s.fed { s.rx with ctrl := 0x03#8, state := .ctrlRcv } .cont) ∧
    exec .ua s = .next (s.fed { s.rx with ctrl := 0x07#8, state := .ctrlRcv } .cont) ∧
    exec .disc s = .next (s.fed { s.rx with ctrl := 0x0B#8, state := .ctrlRcv } .cont) ∧
    (∀ nr : BitVec 1, exec (.rr nr) s = .next (s.fed
      { s.rx with ctrl := 0x05#8 ||| (nr.setWidth 8 <<< 7), state := .ctrlRcv } .cont)) ∧
    (∀ nr : BitVec 1, exec (.rej nr) s = .next (s.fed
      { s.rx with ctrl := 0x01#8 ||| (nr.setWidth 8 <<< 7), state := .ctrlRcv } .cont)) ∧
    (∀ ns : BitVec 1, exec (.info ns) s = .next (s.fed
      { s.rx with ctrl := ns.setWidth 8 <<< 6, state := .ctrlRcv } .cont))

/-- In every state a frame-type row or a symbol row does what the FEEDs of its wire bytes do (R84; log 1). -/
def Obligations.RowsAreFeedsOfTheirBytes : Prop :=
  ∀ s : State,
    exec .set s = execAll [.feed 0x03#8] s ∧
    exec .ua s = execAll [.feed 0x07#8] s ∧
    exec .disc s = execAll [.feed 0x0B#8] s ∧
    (∀ nr : BitVec 1, exec (.rr nr) s = execAll [.feed (0x05#8 ||| (nr.setWidth 8 <<< 7))] s) ∧
    (∀ nr : BitVec 1, exec (.rej nr) s = execAll [.feed (0x01#8 ||| (nr.setWidth 8 <<< 7))] s) ∧
    (∀ ns : BitVec 1, exec (.info ns) s = execAll [.feed (ns.setWidth 8 <<< 6)] s) ∧
    (∀ b, exec (.lit b) s = execAll [.feed b] s) ∧
    exec .escFlag s = execAll [.feed 0x7D#8, .feed 0x5E#8] s ∧
    exec .escEsc s = execAll [.feed 0x7D#8, .feed 0x5D#8] s ∧
    exec .endSym s = execAll [.feed 0x7E#8] s ∧
    (∀ x, exec (.escBad x) s = execAll [.feed 0x7D#8, .feed x] s)

/-- The literal symbols in the open stuffed region: each adds its byte, or overflows (R76, R148, R149, R43; log 1). -/
def Obligations.LiteralSymbolsInRegion : Prop :=
  ∀ s : State, s.InRegion → s.rx.esc = false →
    (¬ s.Full →
      (∀ b, b ≠ 0x7E#8 → b ≠ 0x7D#8 → exec (.lit b) s =
        .next (s.fed { s.rx with buf := s.rx.buf ++ [b] } .cont)) ∧
      exec .escFlag s =
        .next ((s.fed s.rx .cont).fed { s.rx with buf := s.rx.buf ++ [0x7E#8] } .cont) ∧
      exec .escEsc s =
        .next ((s.fed s.rx .cont).fed { s.rx with buf := s.rx.buf ++ [0x7D#8] } .cont)) ∧
    (s.Full →
      (∀ b, b ≠ 0x7E#8 → b ≠ 0x7D#8 → exec (.lit b) s =
        .next (s.fed { s.rx with state := .start, buf := [] } (.error .malformed))) ∧
      exec .escFlag s =
        .next ((s.fed s.rx .cont).fed { s.rx with state := .start, buf := [] } (.error .malformed)) ∧
      exec .escEsc s =
        .next ((s.fed s.rx .cont).fed { s.rx with state := .start, buf := [] } (.error .malformed)))

/-- END and ESC_BAD in the open stuffed region: END checks and closes the frame, ESC_BAD is Malformed on its second
byte (R76, R148, R149; log 1). -/
def Obligations.ClosingSymbolsInRegion : Prop :=
  ∀ s : State, s.InRegion → s.rx.esc = false →
    (s.rx.buf = [] → exec .endSym s =
      .next (s.fed { s.rx with state := .start } (.error .malformed))) ∧
    (∀ p b2, s.rx.buf = p ++ [b2] → xorAll p = b2 → exec .endSym s =
      .next (s.fed { s.rx with state := .start, buf := [] }
        (.frameReady { addr := s.rx.addr, ctrl := s.rx.ctrl, payload := p }))) ∧
    (∀ p b2, s.rx.buf = p ++ [b2] → xorAll p ≠ b2 → exec .endSym s =
      .next (s.fed { s.rx with state := .start, buf := [] } (.error .checksumMismatch))) ∧
    (∀ x, x ≠ 0x5E#8 → x ≠ 0x5D#8 → exec (.escBad x) s =
      .next ((s.fed s.rx .cont).fed { s.rx with state := .start, buf := [] } (.error .malformed)))

/-! ### Codec -/

/-- R10: the running XOR. -/
def Obligations.RunningXor : Prop :=
  xorAll [] = 0x00#8 ∧ ∀ (s : List Byte) (b : Byte), xorAll (s ++ [b]) = xorAll s ^^^ b

/-- R100, R102, R103: ENCODE's result in every state, for every Frame; nothing but the result is written. -/
def Obligations.EncodeEmitsFrame : Prop :=
  ∀ (s : State) (f : Frame),
    (classOf f.ctrl = .info → exec (.encode f) s = .next { s with results := s.results ++ [.bytes
      ([0x7E#8, f.addr, f.ctrl, f.addr ^^^ f.ctrl] ++ stuff (f.payload ++ [xorAll f.payload]) ++ [0x7E#8])] }) ∧
    (classOf f.ctrl ≠ .info → exec (.encode f) s = .next { s with results := s.results ++ [.bytes
      [0x7E#8, f.addr, f.ctrl, f.addr ^^^ f.ctrl, 0x7E#8]] })

/-- R101: stuffing, its length, and where FLAG and ESC can stand in its result. -/
def Obligations.StuffingLaws : Prop :=
  stuff [] = [] ∧
  (∀ s, stuff (0x7E#8 :: s) = 0x7D#8 :: 0x5E#8 :: stuff s) ∧
  (∀ s, stuff (0x7D#8 :: s) = 0x7D#8 :: 0x5D#8 :: stuff s) ∧
  (∀ b s, b ≠ 0x7E#8 → b ≠ 0x7D#8 → stuff (b :: s) = b :: stuff s) ∧
  (∀ s, (stuff s).length = s.length + (s.filter (fun b => b = 0x7E#8 ∨ b = 0x7D#8)).length) ∧
  (∀ s, 0x7E#8 ∉ stuff s) ∧
  (∀ s i, (stuff s)[i]? = some 0x7D#8 → (stuff s)[i + 1]? = some 0x5E#8 ∨ (stuff s)[i + 1]? = some 0x5D#8)

/-- R106: the length of ENCODE's result. -/
def Obligations.EncodedLength : Prop :=
  ∀ (s : State) (f : Frame), ∃ w, exec (.encode f) s = .next { s with results := s.results ++ [.bytes w] } ∧
    (classOf f.ctrl ≠ .info → w.length = 5) ∧
    (classOf f.ctrl = .info → w.length = 6 + f.payload.length +
      ((f.payload ++ [xorAll f.payload]).filter (fun b => b = 0x7E#8 ∨ b = 0x7D#8)).length)

/-- R105: where 0x7E stands in ENCODE's result. -/
def Obligations.FlagPositionsInEncoding : Prop :=
  ∀ (s : State) (f : Frame), ∃ w, exec (.encode f) s = .next { s with results := s.results ++ [.bytes w] } ∧
    w[0]? = some 0x7E#8 ∧ w[w.length - 1]? = some 0x7E#8 ∧
    (∀ i, w[i]? = some 0x7E#8 → i = 0 ∨ i = w.length - 1 ∨ (i = 1 ∧ f.addr = 0x7E#8) ∨
      (i = 2 ∧ f.ctrl = 0x7E#8) ∨ (i = 3 ∧ f.addr ^^^ f.ctrl = 0x7E#8)) ∧
    (Valid s.cfg f → f.addr = 0x03#8 ∨ f.addr = 0x01#8 →
      ∀ i, w[i]? = some 0x7E#8 → i = 0 ∨ i = w.length - 1)

/-- R121: destuffing, symbol by symbol, and that it reverses stuffing. -/
def Obligations.DestuffingLaws : Prop :=
  destuff [] = some [] ∧
  (∀ s, destuff (0x7E#8 :: s) = none) ∧
  destuff [0x7D#8] = none ∧
  (∀ s, destuff (0x7D#8 :: 0x5E#8 :: s) = (destuff s).map (0x7E#8 :: ·)) ∧
  (∀ s, destuff (0x7D#8 :: 0x5D#8 :: s) = (destuff s).map (0x7D#8 :: ·)) ∧
  (∀ x s, x ≠ 0x5E#8 → x ≠ 0x5D#8 → destuff (0x7D#8 :: x :: s) = none) ∧
  (∀ b s, b ≠ 0x7E#8 → b ≠ 0x7D#8 → destuff (b :: s) = (destuff s).map (b :: ·)) ∧
  (∀ s, destuff (stuff s) = some s)

/-- R122, R184: DECODE's checks in their order, the first that fails giving the result, in every state; nothing but
the result is written. -/
def Obligations.DecodeChecksInOrder : Prop :=
  ∀ (s : State) (raw : List Byte), ∃ v,
    exec (.decode raw) s = .next { s with results := s.results ++ [.verdict v] } ∧
    (raw.length < 5 ∨ raw[0]? ≠ some 0x7E#8 ∨ raw[raw.length - 1]? ≠ some 0x7E#8 → v = .err .malformed) ∧
    (∀ a c b1 body, raw = [0x7E#8, a, c, b1] ++ body ++ [0x7E#8] →
      (b1 ≠ a ^^^ c → v = .err .checksumMismatch) ∧
      (b1 = a ^^^ c → a = 0x7E#8 → v = .err .malformed) ∧
      (b1 = a ^^^ c → a ≠ 0x7E#8 →
        (classOf c = .unassigned → v = .err .malformed) ∧
        (classOf c = .supervisory → body ≠ [] → v = .err .malformed) ∧
        (classOf c = .supervisory → body = [] → v = .ok { addr := a, ctrl := c, payload := [] }) ∧
        (classOf c = .info → destuff body = none ∨ destuff body = some [] → v = .err .malformed) ∧
        (∀ p b2, classOf c = .info → destuff body = some (p ++ [b2]) →
          ((∃ m, s.cfg.maxPayload = some m ∧ m + 1 < (p ++ [b2]).length) → v = .err .malformed) ∧
          ((∀ m, s.cfg.maxPayload = some m → (p ++ [b2]).length ≤ m + 1) →
            (xorAll p ≠ b2 → v = .err .checksumMismatch) ∧
            (xorAll p = b2 → v = .ok { addr := a, ctrl := c, payload := p })))))

/-- R124: DECODE of ENCODE of a valid Frame is that Frame. -/
def Obligations.DecodeOfEncodedValidFrame : Prop :=
  ∀ (s : State) (f : Frame), Valid s.cfg f →
    ∃ w, exec (.encode f) s = .next { s with results := s.results ++ [.bytes w] } ∧
      exec (.decode w) s = .next { s with results := s.results ++ [.verdict (.ok f)] }

/-- R104, R78: a Frame that is not valid does not come back from DECODE of ENCODE; cases 3, 4 (an address of 0x7E) and 7
(too long a payload) give Malformed, and case 2 loses the payload. -/
def Obligations.DecodeOfEncodedInvalidFrame : Prop :=
  ∀ (s : State) (f : Frame), ¬ Valid s.cfg f →
    ∃ w v, exec (.encode f) s = .next { s with results := s.results ++ [.bytes w] } ∧
      exec (.decode w) s = .next { s with results := s.results ++ [.verdict v] } ∧ v ≠ .ok f ∧
      (f.addr = 0x7E#8 ∨ classOf f.ctrl = .unassigned ∨
        (classOf f.ctrl = .info ∧ ∃ m, s.cfg.maxPayload = some m ∧ m < f.payload.length) →
        v = .err .malformed) ∧
      (f.addr ≠ 0x7E#8 → classOf f.ctrl = .supervisory →
        v = .ok { addr := f.addr, ctrl := f.ctrl, payload := [] })

/-- R126: every single-bit change of an encoded valid Frame is detected, with the verdict its place gives. -/
def Obligations.SingleBitFlipIsDetected : Prop :=
  ∀ (s : State) (f : Frame), Valid s.cfg f →
    ∃ w, exec (.encode f) s = .next { s with results := s.results ++ [.bytes w] } ∧
      ∀ (i : Nat) (k : Fin 8) (b : Byte), w[i]? = some b →
        ∃ v, exec (.decode (w.set i (b ^^^ BitVec.twoPow 8 k))) s =
            .next { s with results := s.results ++ [.verdict v] } ∧
          (i = 1 ∨ i = 2 ∨ i = 3 → v = .err .checksumMismatch) ∧
          (i = 0 ∨ i = w.length - 1 → v = .err .malformed) ∧
          (4 ≤ i → i < w.length - 1 → v = .err .checksumMismatch ∨ v = .err .malformed)

/-! ### Laws of the receiver -/

/-- R24: every step keeps the receiver's invariants. -/
def Obligations.StepKeepsReceiverInvariants : Prop :=
  ∀ s t : State, s.Inv → step s = .next t → t.Inv

/-- Every step keeps the receiver's invariants, an address register that never holds FLAG, and that every frame
delivered so far is valid (R24, R26, R78, R143). -/
def Obligations.StepKeepsDeliveredFramesValid : Prop :=
  ∀ s t : State, s.Sound → step s = .next t → t.Sound

/-- An instance is sound at power-on, for every `MAX_PAYLOAD`, whatever the host is about to issue (R24, R29). -/
def Obligations.PowerOnIsSound : Prop :=
  ∀ (m : Option Nat) (p : List Issue), State.Sound { State.powerOn m with pending := p }

/-- Every state that any run of an instance reaches is sound: its receiver satisfies the invariants (R24), its address
register does not hold FLAG (R143), and every frame it has delivered is valid (R26, R78). A run is one of the host's
list of items (log 3), with the results in State (log 4), for every `MAX_PAYLOAD` (log 6). -/
def Obligations.EveryReachableReceiverIsSound : Prop :=
  ∀ (m : Option Nat) (p : List Issue) (n : Nat) (t : State),
    core.run n { State.powerOn m with pending := p } = .next t → t.Sound

/-- R84: a FEED* stream, run row by row as `step` runs it, ends in the state and with the events of the FEEDs it stands
for, in at most as many steps (log 2). -/
def Obligations.StreamRunIsItsFeeds : Prop :=
  ∀ (s : State) (b : Byte) (bs : List Byte) (p : List Issue), s.pending = .feedStar b bs :: p →
    ∃ n, 1 ≤ n ∧ n ≤ (b :: bs).length ∧
      core.run n s = execAll (feeds (b :: bs)) { s with pending := p }

/-- R152: what a receiver does not report. -/
def Obligations.NoiseIsSilent : Prop :=
  (∀ (s : State) (bs : List Byte), s.rx.state = .start → (∀ b ∈ bs, b ≠ 0x7E#8) →
    execAll (feeds bs) s = .next { s with results := s.results ++ conts bs.length }) ∧
  (∀ (s : State) (n : Nat), s.rx.state = .start ∨ s.rx.state = .flagRcv → 0 < n →
    execAll (feeds (List.replicate n 0x7E#8)) s =
      .next { s with rx := { s.rx with state := .flagRcv }, results := s.results ++ conts n }) ∧
  (∀ (s t : State) (b : Byte) (why : Reason), exec (.feed b) s = .next t →
    t.results = s.results ++ [.event (.error why)] → s.rx.state = .ctrlRcv ∨ s.rx.state = .bccRcv)

/-- R125, its first sentence: what DECODE accepts, FEED accepts. -/
def Obligations.FeedAcceptsWhatDecodeAccepts : Prop :=
  ∀ (s : State) (raw : List Byte) (f : Frame),
    exec (.decode raw) s = .next { s with results := s.results ++ [.verdict (.ok f)] } →
    s.rx.state = .start ∨ s.rx.state = .flagRcv → s.rx.esc = false → s.rx.buf = [] →
    execAll (feeds raw) s = .next { s with
      rx := { state := .start, addr := f.addr, ctrl := f.ctrl, esc := false, buf := [] },
      results := s.results ++ conts (raw.length - 1) ++ [.event (.frameReady f)] }

/-- R153: from power-on, encoded valid Frames with noise before, between and after them are delivered in order, each
on its closing flag, and nothing else is reported. -/
def Obligations.ReceiverAcceptsEncodedFrames : Prop :=
  ∀ (m : Option Nat) (gaps : List (List Byte × Nat × Frame)) (last : List Byte) (k : Nat),
    (∀ g ∈ gaps, (∀ b ∈ g.1, b ≠ 0x7E#8) ∧ Valid { maxPayload := m } g.2.2) →
    (∀ b ∈ last, b ≠ 0x7E#8) →
    ∃ t, execAll (feeds (gaps.flatMap (fun g => g.1 ++ List.replicate g.2.1 0x7E#8 ++ encodeFrame g.2.2) ++
        (last ++ List.replicate k 0x7E#8))) (State.powerOn m) = .next t ∧
      t.results = gaps.flatMap (fun g =>
          conts (g.1.length + g.2.1 + (encodeFrame g.2.2).length - 1) ++ [.event (.frameReady g.2.2)]) ++
        conts (last.length + k)

/-- R154: resynchronization after a byte of an encoded frame is replaced by a flag, with its two exceptions. -/
def Obligations.ResynchronizesAfterCorruptedFlag : Prop :=
  ∀ (m : Option Nat) (g f : Frame) (i : Nat) (b : Byte),
    Valid { maxPayload := m } g → Valid { maxPayload := m } f →
    1 ≤ i → i + 2 ≤ (encodeFrame g).length → (encodeFrame g)[i]? = some b → b ≠ 0x7E#8 →
    ∃ t e, execAll (feeds ((encodeFrame g).set i 0x7E#8 ++ encodeFrame f)) (State.powerOn m) = .next t ∧
      notable t.results = [e, .frameReady f] ∧
      ((classOf g.ctrl = .info ∧ 4 ≤ i ∧
          (∃ d, destuff (((encodeFrame g).take i).drop 4) = some d ∧ d ≠ [] ∧ xorAll d = 0x00#8)) ∨
        (g.addr = 0x00#8 ∧ i = 1 ∧ classOf g.ctrl = .info ∧ g.payload.head? = some 0x00#8) →
        ∃ g', e = .frameReady g' ∧ g' ≠ g) ∧
      (¬ ((classOf g.ctrl = .info ∧ 4 ≤ i ∧
          (∃ d, destuff (((encodeFrame g).take i).drop 4) = some d ∧ d ≠ [] ∧ xorAll d = 0x00#8)) ∨
        (g.addr = 0x00#8 ∧ i = 1 ∧ classOf g.ctrl = .info ∧ g.payload.head? = some 0x00#8)) →
        ∃ why, e = .error why)

/-- R204: when one flag closes a frame and should open the next, the next frame is lost silently. -/
def Obligations.SharedFlagLosesSecondFrame : Prop :=
  ∀ (m : Option Nat) (f g : Frame),
    Valid { maxPayload := m } f → Valid { maxPayload := m } g →
    g.ctrl ≠ 0x7E#8 → g.addr ^^^ g.ctrl ≠ 0x7E#8 →
    ∃ t, execAll (feeds (encodeFrame f ++ (encodeFrame g).tail)) (State.powerOn m) = .next t ∧
      notable t.results = [.frameReady f] ∧ t.rx.state = .flagRcv

/-- R210: a payload longer than the receiver's `MAX_PAYLOAD`, arriving uncorrupted, ends in Error(Malformed), and no
frame is delivered. -/
def Obligations.OversizePayloadIsMalformed : Prop :=
  ∀ (m : Nat) (f : Frame), f.addr ≠ 0x7E#8 → classOf f.ctrl = .info → m < f.payload.length →
    ∃ t, execAll (feeds (encodeFrame f)) (State.powerOn (some m)) = .next t ∧
      notable t.results = [.error .malformed]

/-- R25: the address and the control byte cannot be observed in the states where no rule reads them, whatever bytes are
fed. -/
def Obligations.UnreadLatchesAreUnobservable : Prop :=
  ∀ (s s' : State) (bs : List Byte), s.cfg = s'.cfg → s.results = s'.results → Rx.Agree s.rx s'.rx →
    ∃ t t', execAll (feeds bs) s = .next t ∧ execAll (feeds bs) s' = .next t' ∧
      t.results = t'.results ∧ Rx.Agree t.rx t'.rx ∧ t.rxStatus = t'.rxStatus ∧ t.rxLen = t'.rxLen

/-- R21, R30: commands to the TX unit and the checker may be taken out of a run, or put in anywhere, without any effect
on the receiver or its events, and their own results do not depend on the receiver. -/
def Obligations.UnitsShareNoState : Prop :=
  (∀ (cmds : List Instr) (s : State), ∃ t t',
    execAll cmds s = .next t ∧ execAll (cmds.filter (fun i => unitOf i = .rx)) s = .next t' ∧
    t.rx = t'.rx ∧ eventsOf t.results = eventsOf t'.results) ∧
  (∀ (i : Instr) (s : State) (r : Rx), unitOf i ≠ .rx → ∃ x,
    exec i s = .next { s with results := s.results ++ [x] } ∧
    exec i { s with rx := r } = .next { s with rx := r, results := s.results ++ [x] })

/-! ### Status port and codes -/

/-- R27, R23: the status port. -/
def Obligations.StatusPortFields : Prop :=
  ∀ s : State,
    (s.rxStatus).extractLsb' 0 3 = (match s.rx.state with
      | .start => 0#3 | .flagRcv => 1#3 | .addrRcv => 2#3 | .ctrlRcv => 3#3 | .bccRcv => 4#3) ∧
    (s.rxStatus).getLsbD 3 = s.rx.esc ∧
    (s.rxStatus).extractLsb' 4 4 = 0#4 ∧
    s.rxLen = s.rx.buf.length

/-- R181 with R180's reason codes: the event outputs and the DECODE result code. -/
def Obligations.EventAndVerdictCodes : Prop :=
  (Event.kind .cont = 0 ∧ Event.reasonCode .cont = 0 ∧ Event.frame? .cont = none) ∧
  (∀ f, Event.kind (.frameReady f) = 1 ∧ Event.reasonCode (.frameReady f) = 0 ∧
    Event.frame? (.frameReady f) = some f) ∧
  (∀ why, Event.kind (.error why) = 2 ∧ Event.frame? (.error why) = none) ∧
  Event.reasonCode (.error .bccMismatch) = 1 ∧ Event.reasonCode (.error .checksumMismatch) = 2 ∧
  Event.reasonCode (.error .malformed) = 3 ∧
  (∀ e, Event.kind e ≠ 3) ∧
  (∀ f, Verdict.code (.ok f) = 0) ∧ Verdict.code (.err .checksumMismatch) = 2 ∧
  Verdict.code (.err .malformed) = 3
end

