-- ==== Sys2Proof/Laws/State.lean ====
section
/-! SUPPORT. The field lemmas of every update of the state: one per field per update, true by rfl. -/

namespace Sys2Proof.Machine

/-! ### The wire constants are distinct (R60, R61) -/

@[simp] theorem esc_ne_flag : Wire.esc ≠ Wire.flag := by decide
@[simp] theorem flag_ne_esc : Wire.flag ≠ Wire.esc := by decide
@[simp] theorem escEscSucc_ne_escFlagSucc : Wire.escEscSucc ≠ Wire.escFlagSucc := by decide
@[simp] theorem escFlagSucc_ne_escEscSucc : Wire.escFlagSucc ≠ Wire.escEscSucc := by decide
@[simp] theorem flag_ne_escFlagSucc : Wire.flag ≠ Wire.escFlagSucc := by decide
@[simp] theorem flag_ne_escEscSucc : Wire.flag ≠ Wire.escEscSucc := by decide

/-! ### Handing over a result -/

@[simp] theorem State.give_rx (s : State) (x : Result) : (s.give x).rx = s.rx := rfl
@[simp] theorem State.give_cfg (s : State) (x : Result) : (s.give x).cfg = s.cfg := rfl
@[simp] theorem State.give_pending (s : State) (x : Result) : (s.give x).pending = s.pending := rfl
@[simp] theorem State.give_results (s : State) (x : Result) : (s.give x).results = s.results ++ [x] := rfl

/-! ### One FEED -/

@[simp] theorem State.fed_rx (s : State) (r : Rx) (e : Event) : (s.fed r e).rx = r := rfl
@[simp] theorem State.fed_cfg (s : State) (r : Rx) (e : Event) : (s.fed r e).cfg = s.cfg := rfl
@[simp] theorem State.fed_pending (s : State) (r : Rx) (e : Event) : (s.fed r e).pending = s.pending := rfl
@[simp] theorem State.fed_results (s : State) (r : Rx) (e : Event) :
    (s.fed r e).results = s.results ++ [.event e] := rfl

theorem State.afterFeed_eq (s : State) (out : Rx × Event) : s.afterFeed out = s.fed out.1 out.2 := rfl

@[simp] theorem takeByte_rx (s : State) (b : Byte) : (takeByte s b).rx = (rxFeed s.cfg s.rx b).1 := rfl
@[simp] theorem takeByte_cfg (s : State) (b : Byte) : (takeByte s b).cfg = s.cfg := rfl
@[simp] theorem takeByte_pending (s : State) (b : Byte) : (takeByte s b).pending = s.pending := rfl
@[simp] theorem takeByte_results (s : State) (b : Byte) :
    (takeByte s b).results = s.results ++ [.event (rxFeed s.cfg s.rx b).2] := rfl

/-! ### The receiver's return to Start -/

@[simp] theorem toStart_state (r : Rx) : (toStart r).state = .start := rfl
@[simp] theorem toStart_addr (r : Rx) : (toStart r).addr = r.addr := rfl
@[simp] theorem toStart_ctrl (r : Rx) : (toStart r).ctrl = r.ctrl := rfl
@[simp] theorem toStart_esc (r : Rx) : (toStart r).esc = false := rfl
@[simp] theorem toStart_buf (r : Rx) : (toStart r).buf = [] := rfl

@[simp] theorem clearEsc_state (r : Rx) : (clearEsc r).state = r.state := rfl
@[simp] theorem clearEsc_addr (r : Rx) : (clearEsc r).addr = r.addr := rfl
@[simp] theorem clearEsc_ctrl (r : Rx) : (clearEsc r).ctrl = r.ctrl := rfl
@[simp] theorem clearEsc_esc (r : Rx) : (clearEsc r).esc = false := rfl
@[simp] theorem clearEsc_buf (r : Rx) : (clearEsc r).buf = r.buf := rfl
@[simp] theorem toStart_clearEsc (r : Rx) : toStart (clearEsc r) = toStart r := rfl

@[simp] theorem raiseError_rx (r : Rx) (why : Reason) : (raiseError r why).1 = toStart r := rfl
@[simp] theorem raiseError_event (r : Rx) (why : Reason) : (raiseError r why).2 = .error why := rfl
@[simp] theorem deliver_rx (r : Rx) (p : List Byte) : (deliver r p).1 = toStart r := rfl
@[simp] theorem deliver_event (r : Rx) (p : List Byte) :
    (deliver r p).2 = .frameReady { addr := r.addr, ctrl := r.ctrl, payload := p } := rfl

/-! ### Power-on -/

@[simp] theorem State.powerOn_rx (m : Option Nat) : (State.powerOn m).rx = Rx.reset := rfl
@[simp] theorem State.powerOn_cfg (m : Option Nat) : (State.powerOn m).cfg = { maxPayload := m } := rfl
@[simp] theorem State.powerOn_pending (m : Option Nat) : (State.powerOn m).pending = [] := rfl
@[simp] theorem State.powerOn_results (m : Option Nat) : (State.powerOn m).results = [] := rfl

end Sys2Proof.Machine
end

