-- ==== Sys2Proof/Laws/Codec.lean ====
section
/-! SUPPORT. The codec's functions: one lemma for each way an operand can be made. -/

namespace Sys2Proof.Machine

/-! ### The running XOR -/

@[simp] theorem xorAll_nil : xorAll [] = 0x00#8 := rfl

theorem xorAll_concat (s : List Byte) (b : Byte) : xorAll (s ++ [b]) = xorAll s ^^^ b := by
  simp [xorAll]

theorem foldl_xor_start (acc : Byte) (s : List Byte) :
    s.foldl (fun acc b => acc ^^^ b) acc = acc ^^^ xorAll s := by
  induction s generalizing acc with
  | nil => simp [xorAll]
  | cons b s ih => simp only [xorAll, List.foldl_cons] at *; rw [ih, ih (0x00#8 ^^^ b)]; simp [BitVec.xor_assoc]

theorem xorAll_cons (b : Byte) (s : List Byte) : xorAll (b :: s) = b ^^^ xorAll s := by
  show s.foldl _ (0x00#8 ^^^ b) = _
  rw [foldl_xor_start]; simp

theorem xorAll_append (s t : List Byte) : xorAll (s ++ t) = xorAll s ^^^ xorAll t := by
  induction s with
  | nil => simp
  | cons b s ih => simp [xorAll_cons, ih, BitVec.xor_assoc]

/-! ### Stuffing -/

theorem stuff_cons (b : Byte) (s : List Byte) : stuff (b :: s) = sym b ++ stuff s := rfl

theorem stuff_append (s t : List Byte) : stuff (s ++ t) = stuff s ++ stuff t := by
  induction s with
  | nil => rfl
  | cons b s ih => simp [stuff_cons, ih]

theorem sym_flag : sym Wire.flag = [Wire.esc, Wire.escFlagSucc] := rfl
theorem sym_esc : sym Wire.esc = [Wire.esc, Wire.escEscSucc] := rfl
theorem sym_literal {b : Byte} (h : b ≠ Wire.flag) (h' : b ≠ Wire.esc) : sym b = [b] := by
  simp only [sym, if_neg h, if_neg h']

theorem destuff_literal {b : Byte} (s : List Byte) (h : b ≠ Wire.flag) (h' : b ≠ Wire.esc) :
    destuff (b :: s) = (destuff s).map (b :: ·) := by
  cases s <;> simp [destuff, h, h']

theorem destuff_sym_append (b : Byte) (s : List Byte) : destuff (sym b ++ s) = (destuff s).map (b :: ·) := by
  by_cases h : b = Wire.flag
  · subst h; simp [sym_flag, destuff]
  · by_cases h' : b = Wire.esc
    · subst h'; simp [sym_esc, destuff]
    · simp [sym_literal h h', destuff_literal s h h']

/-! ### Frames -/

theorem encodeFrame_eq (f : Frame) :
    encodeFrame f = [Wire.flag, f.addr, f.ctrl, bcc1 f.addr f.ctrl] ++ stuffedRegion f ++ [Wire.flag] := rfl

/-- DECODE of a sequence with its two flags and a header is the check of the header and the body. -/
theorem decodeFrame_framed (cfg : Config) (a c b1 : Byte) (body : List Byte) :
    decodeFrame cfg ([Wire.flag, a, c, b1] ++ body ++ [Wire.flag]) = checkHeader cfg a c b1 body := by
  have hlast : ([Wire.flag, a, c, b1] ++ body ++ [Wire.flag]).getLast? = some Wire.flag := List.getLast?_concat
  have hlen : ¬ ([Wire.flag, a, c, b1] ++ body ++ [Wire.flag]).length < 5 := by simp
  have hdrop : (([Wire.flag, a, c, b1] ++ body ++ [Wire.flag]).drop 4).dropLast = body := by
    show (body ++ [Wire.flag]).dropLast = body
    exact List.dropLast_concat
  unfold decodeFrame
  rw [if_neg (by rw [hlast]; rintro (h | h | h); exacts [hlen h, h rfl, h rfl]), hdrop]
  rfl

/-- Every sequence that passes the framing check is of the form of `decodeFrame_framed`. -/
theorem framed_of_checks {raw : List Byte} (hn : 5 ≤ raw.length) (h0 : raw.head? = some Wire.flag)
    (h1 : raw.getLast? = some Wire.flag) :
    ∃ a c b1 body, raw = [Wire.flag, a, c, b1] ++ body ++ [Wire.flag] := by
  match raw, hn, h0, h1 with
  | [], hn, _, _ => simp at hn
  | [_], hn, _, _ => simp at hn
  | [_, _], hn, _, _ => simp at hn
  | [_, _, _], hn, _, _ => simp at hn
  | x :: a :: c :: b1 :: rest, hn, h0, h1 =>
    obtain rfl : x = Wire.flag := by simpa using h0
    rcases List.eq_nil_or_concat rest with rfl | ⟨body, y, rfl⟩
    · simp at hn
    · rw [List.concat_eq_append] at h1 ⊢
      obtain rfl : y = Wire.flag := by
        have : (Wire.flag :: a :: c :: b1 :: (body ++ [y])) = ([Wire.flag, a, c, b1] ++ body) ++ [y] := by simp
        rw [this, List.getLast?_concat] at h1
        exact Option.some.inj h1
      exact ⟨a, c, b1, body, rfl⟩

theorem checkPayload_concat (cfg : Config) (a c : Byte) (p : List Byte) (b2 : Byte) :
    checkPayload cfg a c (p ++ [b2]) =
      if payloadTooLong cfg p.length then .err .malformed
      else if xorAll p = b2 then .ok { addr := a, ctrl := c, payload := p }
      else .err .checksumMismatch := by
  simp [checkPayload]

theorem checkPayload_nil (cfg : Config) (a c : Byte) : checkPayload cfg a c [] = .err .malformed := rfl

theorem payloadTooLong_iff (cfg : Config) (n : Nat) :
    payloadTooLong cfg n = true ↔ ∃ m, cfg.maxPayload = some m ∧ m < n := by
  unfold payloadTooLong
  cases h : cfg.maxPayload <;> simp

end Sys2Proof.Machine
end

