-- ==== Sys2Proof/Laws/Receiver.lean ====
section
/-! SUPPORT. The RX unit: the arm FEED picks, what the buffer write and the closing flag can do, and that an arm which
ends a frame returns to Start. -/

namespace Sys2Proof.Machine

/-! ### The buffer write -/

theorem bufFull_iff (cfg : Config) (r : Rx) :
    bufFull cfg r = true ↔ ∃ m, cfg.maxPayload = some m ∧ r.buf.length = m + 1 := by
  unfold bufFull
  cases h : cfg.maxPayload <;> simp

theorem append_full {cfg : Config} {r : Rx} (v : Byte) (h : bufFull cfg r = true) :
    append cfg r v = raiseError r .malformed := by
  simp [append, h]

theorem append_room {cfg : Config} {r : Rx} (v : Byte) (h : bufFull cfg r = false) :
    append cfg r v = ({ r with buf := r.buf ++ [v] }, .cont) := by
  simp [append, h]

@[simp] theorem bufFull_clearEsc (cfg : Config) (r : Rx) : bufFull cfg (clearEsc r) = bufFull cfg r := rfl

/-- All that `append` can do (R43). -/
theorem append_cases (cfg : Config) (r : Rx) (v : Byte) :
    (bufFull cfg r = true ∧ append cfg r v = raiseError r .malformed) ∨
    (bufFull cfg r = false ∧ append cfg r v = ({ r with buf := r.buf ++ [v] }, .cont)) := by
  cases h : bufFull cfg r
  · exact .inr ⟨rfl, append_room v h⟩
  · exact .inl ⟨rfl, append_full v h⟩

/-! ### The arm FEED picks -/

section Arms
variable {cfg : Config} {r : Rx} (b : Byte)

theorem rxFeed_start (h : r.state = .start) : rxFeed cfg r b = feedStart r b := by
  simp [rxFeed, h]

theorem rxFeed_flagRcv (h : r.state = .flagRcv) : rxFeed cfg r b = feedFlagRcv r b := by
  simp [rxFeed, h]

theorem rxFeed_addrRcv (h : r.state = .addrRcv) : rxFeed cfg r b = feedAddrRcv r b := by
  simp [rxFeed, h]

theorem rxFeed_ctrlRcv (h : r.state = .ctrlRcv) : rxFeed cfg r b = feedCtrlRcv r b := by
  simp [rxFeed, h]

theorem rxFeed_supervisory (h : r.state = .bccRcv) (hc : classOf r.ctrl = .supervisory) :
    rxFeed cfg r b = feedSupervisory r b := by
  simp [rxFeed, h, hc]

theorem rxFeed_unassigned (h : r.state = .bccRcv) (hc : classOf r.ctrl = .unassigned) :
    rxFeed cfg r b = feedUnassigned r := by
  simp [rxFeed, h, hc]

theorem rxFeed_region (h : r.state = .bccRcv) (hc : classOf r.ctrl = .info) (he : r.esc = false) :
    rxFeed cfg r b = feedRegion cfg r b := by
  simp [rxFeed, h, hc, he]

theorem rxFeed_successor (h : r.state = .bccRcv) (hc : classOf r.ctrl = .info) (he : r.esc = true) :
    rxFeed cfg r b = feedSuccessor cfg r b := by
  simp [rxFeed, h, hc, he]

end Arms

/-! ### The closing flag -/

theorem closeInfo_empty {r : Rx} (h : r.buf = []) : closeInfo r = raiseError r .malformed := by
  simp [closeInfo, h]

theorem closeInfo_concat {r : Rx} {p : List Byte} {b2 : Byte} (h : r.buf = p ++ [b2]) :
    closeInfo r = if xorAll p = b2 then deliver r p else raiseError r .checksumMismatch := by
  simp [closeInfo, h]

/-- All that the closing flag of an I-frame can do (R148). -/
theorem closeInfo_cases (r : Rx) :
    (r.buf = [] ∧ closeInfo r = raiseError r .malformed) ∨
    (∃ p b2, r.buf = p ++ [b2] ∧ xorAll p = b2 ∧ closeInfo r = deliver r p) ∨
    (∃ p b2, r.buf = p ++ [b2] ∧ xorAll p ≠ b2 ∧ closeInfo r = raiseError r .checksumMismatch) := by
  rcases List.eq_nil_or_concat r.buf with h | ⟨p, b2, h⟩
  · exact .inl ⟨h, closeInfo_empty h⟩
  · rw [List.concat_eq_append] at h
    by_cases hx : xorAll p = b2
    · exact .inr (.inl ⟨p, b2, h, hx, by rw [closeInfo_concat h, if_pos hx]⟩)
    · exact .inr (.inr ⟨p, b2, h, hx, by rw [closeInfo_concat h, if_neg hx]⟩)

/-! ### What one FEED can do -/

/-- All that one FEED can do to the receiver: the arms of R142 to R149, one case for each branch. -/
theorem rxFeed_cases (cfg : Config) (r : Rx) (b : Byte) :
    (r.state = .start ∧ b = Wire.flag ∧ rxFeed cfg r b = ({ r with state := .flagRcv }, .cont)) ∨
    (r.state = .start ∧ b ≠ Wire.flag ∧ rxFeed cfg r b = (r, .cont)) ∨
    (r.state = .flagRcv ∧ b = Wire.flag ∧ rxFeed cfg r b = (r, .cont)) ∨
    (r.state = .flagRcv ∧ b ≠ Wire.flag ∧ rxFeed cfg r b = ({ r with addr := b, state := .addrRcv }, .cont)) ∨
    (r.state = .addrRcv ∧ rxFeed cfg r b = ({ r with ctrl := b, state := .ctrlRcv }, .cont)) ∨
    (r.state = .ctrlRcv ∧ b = bcc1 r.addr r.ctrl ∧
      rxFeed cfg r b = ({ r with state := .bccRcv, esc := false, buf := [] }, .cont)) ∨
    (r.state = .ctrlRcv ∧ b ≠ bcc1 r.addr r.ctrl ∧ rxFeed cfg r b = raiseError r .bccMismatch) ∨
    (r.state = .bccRcv ∧ classOf r.ctrl = .supervisory ∧ b = Wire.flag ∧ rxFeed cfg r b = deliver r []) ∨
    (r.state = .bccRcv ∧ classOf r.ctrl = .supervisory ∧ b ≠ Wire.flag ∧
      rxFeed cfg r b = raiseError r .malformed) ∨
    (r.state = .bccRcv ∧ classOf r.ctrl = .unassigned ∧ rxFeed cfg r b = raiseError r .malformed) ∨
    (r.state = .bccRcv ∧ classOf r.ctrl = .info ∧ r.esc = false ∧ b = Wire.flag ∧
      rxFeed cfg r b = closeInfo r) ∨
    (r.state = .bccRcv ∧ classOf r.ctrl = .info ∧ r.esc = false ∧ b = Wire.esc ∧
      rxFeed cfg r b = ({ r with esc := true }, .cont)) ∨
    (r.state = .bccRcv ∧ classOf r.ctrl = .info ∧ r.esc = false ∧ b ≠ Wire.flag ∧ b ≠ Wire.esc ∧
      rxFeed cfg r b = append cfg r b) ∨
    (r.state = .bccRcv ∧ classOf r.ctrl = .info ∧ r.esc = true ∧ b = Wire.escFlagSucc ∧
      rxFeed cfg r b = append cfg (clearEsc r) Wire.flag) ∨
    (r.state = .bccRcv ∧ classOf r.ctrl = .info ∧ r.esc = true ∧ b = Wire.escEscSucc ∧
      rxFeed cfg r b = append cfg (clearEsc r) Wire.esc) ∨
    (r.state = .bccRcv ∧ classOf r.ctrl = .info ∧ r.esc = true ∧ b ≠ Wire.escFlagSucc ∧
      b ≠ Wire.escEscSucc ∧ rxFeed cfg r b = raiseError r .malformed) := by
  cases hs : r.state with
  | start => rw [rxFeed_start b hs]; by_cases hb : b = Wire.flag <;> simp [feedStart, hb]
  | flagRcv => rw [rxFeed_flagRcv b hs]; by_cases hb : b = Wire.flag <;> simp [feedFlagRcv, hb]
  | addrRcv => rw [rxFeed_addrRcv b hs]; simp [feedAddrRcv]
  | ctrlRcv =>
    rw [rxFeed_ctrlRcv b hs]
    by_cases hb : b = bcc1 r.addr r.ctrl <;> simp [feedCtrlRcv, hb]
  | bccRcv =>
    cases hc : classOf r.ctrl with
    | supervisory =>
      rw [rxFeed_supervisory b hs hc]; by_cases hb : b = Wire.flag <;> simp [feedSupervisory, hb]
    | unassigned => rw [rxFeed_unassigned b hs hc]; simp [feedUnassigned]
    | info =>
      cases he : r.esc with
      | false =>
        rw [rxFeed_region b hs hc he]
        by_cases hf : b = Wire.flag
        · simp [feedRegion, hf]
        · by_cases hx : b = Wire.esc <;> simp [feedRegion, hf, hx, hs]
      | true =>
        rw [rxFeed_successor b hs hc he]
        by_cases hf : b = Wire.escFlagSucc
        · simp [feedSuccessor, hf]
        · by_cases hx : b = Wire.escEscSucc <;> simp [feedSuccessor, hf, hx]

/-- A FEED returns Continue, or its receiver is back in Start with the escape and the buffer cleared. -/
theorem rxFeed_cont_or_toStart (cfg : Config) (r : Rx) (b : Byte) :
    (rxFeed cfg r b).2 = .cont ∨ (rxFeed cfg r b).1 = toStart r := by
  rcases rxFeed_cases cfg r b with ⟨-, -, h⟩ | ⟨-, -, h⟩ | ⟨-, -, h⟩ | ⟨-, -, h⟩ | ⟨-, h⟩ | ⟨-, -, h⟩ | ⟨-, -, h⟩ |
    ⟨-, -, -, h⟩ | ⟨-, -, -, h⟩ | ⟨-, -, h⟩ | ⟨-, -, -, -, h⟩ | ⟨-, -, -, -, h⟩ | ⟨-, -, -, -, -, h⟩ |
    ⟨-, -, -, -, h⟩ | ⟨-, -, -, -, h⟩ | ⟨-, -, -, -, -, h⟩
  case inr.inr.inr.inr.inr.inr.inr.inr.inr.inr.inl =>
    rcases closeInfo_cases r with ⟨-, h'⟩ | ⟨_, _, -, -, h'⟩ | ⟨_, _, -, -, h'⟩ <;> simp [h, h']
  case inr.inr.inr.inr.inr.inr.inr.inr.inr.inr.inr.inr.inl =>
    rcases append_cases cfg r b with ⟨-, h'⟩ | ⟨-, h'⟩ <;> simp [h, h']
  case inr.inr.inr.inr.inr.inr.inr.inr.inr.inr.inr.inr.inr.inl =>
    rcases append_cases cfg (clearEsc r) Wire.flag with ⟨-, h'⟩ | ⟨-, h'⟩ <;>
      simp [h, h']
  case inr.inr.inr.inr.inr.inr.inr.inr.inr.inr.inr.inr.inr.inr.inl =>
    rcases append_cases cfg (clearEsc r) Wire.esc with ⟨-, h'⟩ | ⟨-, h'⟩ <;>
      simp [h, h']
  all_goals simp [h]

end Sys2Proof.Machine
end

