-- ==== Sys2Proof/Laws/Run.lean ====
section
/-! SUPPORT. Runs: `takeBytes`, what each meaning answers, and `execAll`. -/

namespace Sys2Proof.Machine

/-! ### Bytes taken one after the other -/

@[simp] theorem takeBytes_nil (s : State) : takeBytes s [] = s := rfl

@[simp] theorem takeBytes_cons (s : State) (b : Byte) (bs : List Byte) :
    takeBytes s (b :: bs) = takeBytes (takeByte s b) bs := rfl

theorem takeBytes_append (s : State) (bs cs : List Byte) :
    takeBytes s (bs ++ cs) = takeBytes (takeBytes s bs) cs := by
  simp [takeBytes]

@[simp] theorem takeBytes_cfg (s : State) (bs : List Byte) : (takeBytes s bs).cfg = s.cfg := by
  induction bs generalizing s with
  | nil => rfl
  | cons b bs ih => rw [takeBytes_cons, ih, takeByte_cfg]

@[simp] theorem takeBytes_pending (s : State) (bs : List Byte) : (takeBytes s bs).pending = s.pending := by
  induction bs generalizing s with
  | nil => rfl
  | cons b bs ih => rw [takeBytes_cons, ih, takeByte_pending]

/-- The results given so far stay, and one event is added for each byte (R84). -/
theorem takeBytes_results (s : State) (bs : List Byte) :
    ∃ es : List Event, es.length = bs.length ∧ (takeBytes s bs).results = s.results ++ es.map .event := by
  induction bs generalizing s with
  | nil => exact ⟨[], rfl, by simp⟩
  | cons b bs ih =>
    obtain ⟨es, hl, he⟩ := ih (takeByte s b)
    exact ⟨(rxFeed s.cfg s.rx b).2 :: es, by simp [hl], by simp [he]⟩

/-- The receiver and the events do not depend on the host's two lists. -/
theorem takeBytes_congr (s : State) (p : List Issue) (rs : List Result) (bs : List Byte) :
    ∃ es : List Result, (takeBytes s bs).results = s.results ++ es ∧
      takeBytes { s with pending := p, results := rs } bs =
        { takeBytes s bs with pending := p, results := rs ++ es } := by
  induction bs generalizing s rs with
  | nil => exact ⟨[], by simp, by simp⟩
  | cons b bs ih =>
    obtain ⟨es, h1, h2⟩ := ih (takeByte s b) (rs ++ [.event (rxFeed s.cfg s.rx b).2])
    refine ⟨.event (rxFeed s.cfg s.rx b).2 :: es, by simp [h1], ?_⟩
    simpa [takeByte, State.afterFeed, State.give] using h2

/-! ### What each meaning answers -/

theorem exec_reset (s : State) : exec .reset s = .next { s with rx := Rx.reset } := rfl
theorem exec_feed (b : Byte) (s : State) : exec (.feed b) s = .next (takeByte s b) := rfl
theorem exec_encode (f : Frame) (s : State) : exec (.encode f) s = .next (s.give (.bytes (encodeFrame f))) := rfl
theorem exec_decode (raw : List Byte) (s : State) :
    exec (.decode raw) s = .next (s.give (.verdict (decodeFrame s.cfg raw))) := rfl

theorem wireBytes_feed (b : Byte) : wireBytes (.feed b) = [b] := by
  revert b; decide

/-- A row that is no command runs as the taking of its wire bytes, and FEED as the taking of its byte (log 1). -/
theorem exec_wire {i : Instr} (s : State) (hr : i ≠ .reset) (hu : unitOf i = .rx) :
    exec i s = .next (takeBytes s (wireBytes i)) := by
  cases i with
  | reset => exact absurd rfl hr
  | feed b => rw [wireBytes_feed]; rfl
  | encode f => cases hu
  | decode raw => cases hu
  | _ => rfl

/-! ### Runs of commands -/

@[simp] theorem execAll_nil (s : State) : execAll [] s = .next s := rfl

theorem execAll_cons_next {i : Instr} {s t : State} (is : List Instr) (h : exec i s = .next t) :
    execAll (i :: is) s = execAll is t := by
  simp [execAll, h]

theorem execAll_append {is js : List Instr} {s t : State} (h : execAll is s = .next t) :
    execAll (is ++ js) s = execAll js t := by
  induction is generalizing s with
  | nil => cases h; rfl
  | cons i is ih =>
    simp only [execAll, List.cons_append] at h ⊢
    cases he : exec i s with
    | next u => rw [he] at h; exact ih h
    | fault r => exact r.rec
    | refused r => rw [he] at h; cases h

/-- A run of FEEDs is the taking of the bytes. -/
@[simp] theorem execAll_feeds (bs : List Byte) (s : State) : execAll (feeds bs) s = .next (takeBytes s bs) := by
  induction bs generalizing s with
  | nil => rfl
  | cons b bs ih => exact ih (takeByte s b)

/-! ### The events of a run -/

@[simp] theorem notable_append (rs rs' : List Result) : notable (rs ++ rs') = notable rs ++ notable rs' := by
  induction rs with
  | nil => rfl
  | cons r rs ih =>
    rcases r with _ | _ | _ | _ | _ <;> simp [notable, ih]

@[simp] theorem eventsOf_append (rs rs' : List Result) : eventsOf (rs ++ rs') = eventsOf rs ++ eventsOf rs' := by
  induction rs with
  | nil => rfl
  | cons r rs ih => cases r <;> simp [eventsOf, ih]

@[simp] theorem notable_conts (n : Nat) : notable (conts n) = [] := by
  induction n with
  | zero => rfl
  | succ n ih => exact ih

theorem conts_add (m n : Nat) : conts (m + n) = conts m ++ conts n := by
  exact List.replicate_add m n _

end Sys2Proof.Machine
end

