-- ==== Sys2Proof/Laws/Fetch.lean ====
section
/-! SUPPORT. How a step comes to its instruction. -/

namespace Sys2Proof.Machine

theorem fetch_nil {s : State} (h : s.pending = []) : fetch s = none := by
  simp [fetch, h]

theorem fetch_command {s : State} {w : CommandWord} {f : Frame} {raw : List Byte} {p : List Issue}
    (h : s.pending = .command w f raw :: p) :
    fetch s = some (decodeCommand w f raw, { s with pending := p }) := by
  simp [fetch, h]

theorem fetch_feedStar {s : State} {b : Byte} {rest : List Byte} {p : List Issue}
    (h : s.pending = .feedStar b rest :: p) :
    fetch s = some ((streamRow s.rx b rest).1,
      { s with pending := resumeStream (streamRow s.rx b rest).2 p }) := by
  simp [fetch, h]

@[simp] theorem resumeStream_nil (p : List Issue) : resumeStream [] p = p := rfl
@[simp] theorem resumeStream_cons (b : Byte) (bs : List Byte) (p : List Issue) :
    resumeStream (b :: bs) p = .feedStar b bs :: p := rfl

theorem inRegion_iff (r : Rx) :
    inRegion r = true ↔ r.state = .bccRcv ∧ classOf r.ctrl = .info ∧ r.esc = false := by
  simp [inRegion, and_assoc]

/-- What the command decoder can answer (R83). -/
theorem decodeCommand_cases (w : CommandWord) (f : Frame) (raw : List Byte) :
    decodeCommand w f raw = .reset ∨ decodeCommand w f raw = .feed (w.extractLsb' 0 8) ∨
    decodeCommand w f raw = .encode f ∨ decodeCommand w f raw = .decode raw := by
  unfold decodeCommand
  split
  · exact .inl rfl
  · split
    · exact .inr (.inl rfl)
    · split
      · exact .inr (.inr (.inl rfl))
      · exact .inr (.inr (.inr rfl))

/-- What a symbol consumes is its wire bytes (R76). -/
theorem decodeSymbol_consumes {bs rest : List Byte} {i : Instr} (h : decodeSymbol bs = .ok (i, rest)) :
    bs = wireBytes i ++ rest ∧ unitOf i = .rx ∧ i ≠ .reset := by
  match bs with
  | [] => simp [decodeSymbol] at h
  | [b] =>
    simp only [decodeSymbol] at h
    split at h
    · cases h
    · split at h
      · rename_i hb; cases h; subst hb; exact ⟨rfl, rfl, by decide⟩
      · cases h; exact ⟨rfl, rfl, fun h => nomatch h⟩
  | b :: x :: bs =>
    simp only [decodeSymbol] at h
    split at h
    · rename_i hb; subst hb
      split at h
      · rename_i hx; cases h; subst hx; exact ⟨rfl, rfl, by decide⟩
      · split at h
        · rename_i hx; cases h; subst hx; exact ⟨rfl, rfl, by decide⟩
        · cases h; exact ⟨rfl, rfl, fun h => nomatch h⟩
    · split at h
      · rename_i hb; cases h; subst hb; exact ⟨rfl, rfl, by decide⟩
      · cases h; exact ⟨rfl, rfl, fun h => nomatch h⟩

/-- A control byte that R70 assigns is the one byte of its row. -/
theorem decodeControl_consumes {c : Byte} {i : Instr} (h : decodeControl c = .ok i) :
    wireBytes i = [c] ∧ unitOf i = .rx ∧ i ≠ .reset := by
  have key : ∀ c : Byte, ∀ j ∈ (decodeControl c).toOption, wireBytes j = [c] ∧ unitOf j = .rx ∧ j ≠ .reset := by
    decide
  exact key c i (by rw [h]; rfl)

/-- The row at the head of a stream takes its own wire bytes off it, and belongs to the RX unit. -/
theorem streamRow_consumes (r : Rx) (b : Byte) (rest : List Byte) :
    b :: rest = wireBytes (streamRow r b rest).1 ++ (streamRow r b rest).2 ∧
    unitOf (streamRow r b rest).1 = .rx ∧ (streamRow r b rest).1 ≠ .reset := by
  have feed : b :: rest = wireBytes (.feed b) ++ rest ∧ unitOf (.feed b) = .rx ∧ Instr.feed b ≠ .reset :=
    ⟨by rw [wireBytes_feed]; rfl, rfl, fun h => nomatch h⟩
  unfold streamRow
  split
  · cases h : decodeControl b with
    | ok i => obtain ⟨h1, h2, h3⟩ := decodeControl_consumes h; exact ⟨by simp [h1], h2, h3⟩
    | error e => exact feed
  · split
    · cases h : decodeSymbol (b :: rest) with
      | ok out => exact decodeSymbol_consumes h
      | error e => exact feed
    · exact feed

/-- All that a step can do: nothing when the host issues nothing, else `exec` of one row. -/
theorem step_cases (s : State) :
    (s.pending = [] ∧ step s = .next s) ∨
    (∃ w f raw p, s.pending = .command w f raw :: p ∧
      step s = exec (decodeCommand w f raw) { s with pending := p }) ∨
    (∃ b rest p, s.pending = .feedStar b rest :: p ∧
      step s = exec (streamRow s.rx b rest).1
        { s with pending := resumeStream (streamRow s.rx b rest).2 p }) := by
  match h : s.pending with
  | [] => exact .inl ⟨rfl, by simp [step, fetch_nil h]⟩
  | .command w f raw :: p => exact .inr (.inl ⟨w, f, raw, p, rfl, by simp [step, fetch_command h]⟩)
  | .feedStar b rest :: p => exact .inr (.inr ⟨b, rest, p, rfl, by simp [step, fetch_feedStar h]⟩)

end Sys2Proof.Machine
end

