-- ==== Sys2Proof/Laws/PerInstr.lean ====
section
/-! SUPPORT. One law per instruction, family FitsRow: the words the encoder writes fit the match and mask of the row of
spec/opcode_table.json. -/

namespace Sys2Proof

/-- The words of a row as the opcode table writes them, one number. -/
def Encoded.number : Encoded → Nat
  | .command word _ _ => word.toNat
  | .control c => c.toNat
  | .symbol bytes => bytes.foldl (fun n b => n * 256 + b.toNat) 0

/-- The `match` and `mask` of an instruction's row, copied from spec/opcode_table.json. -/
def rowMatchMask : Instr → Nat × Nat
  | .reset => (0x000, 0x300)
  | .feed _ => (0x100, 0x300)
  | .encode _ => (0x200, 0x300)
  | .decode _ => (0x300, 0x300)
  | .set => (0x03, 0xFF)
  | .ua => (0x07, 0xFF)
  | .disc => (0x0B, 0xFF)
  | .rr _ => (0x05, 0x7F)
  | .rej _ => (0x01, 0x7F)
  | .info _ => (0x00, 0xBF)
  | .lit _ => (0x00, 0x00)
  | .escFlag => (0x7D5E, 0xFFFF)
  | .escEsc => (0x7D5D, 0xFFFF)
  | .endSym => (0x7E, 0xFF)
  | .escBad _ => (0x7D00, 0xFF00)

namespace Laws.FitsRow

def Statement (i : Instr) : Prop :=
  (encode i).number &&& (rowMatchMask i).2 = (rowMatchMask i).1

theorem reset : Statement .reset := by unfold Statement; decide
theorem feed (b : Byte) : Statement (.feed b) := by unfold Statement; revert b; decide
theorem encode (f : Frame) : Statement (.encode f) := by
  show (commandWord 0b10#2 0x00#8).toNat &&& 0x300 = 0x200; decide
theorem decode (raw : List Byte) : Statement (.decode raw) := by
  show (commandWord 0b11#2 0x00#8).toNat &&& 0x300 = 0x300; decide
theorem set : Statement .set := by unfold Statement; decide
theorem ua : Statement .ua := by unfold Statement; decide
theorem disc : Statement .disc := by unfold Statement; decide
theorem rr (nr : BitVec 1) : Statement (.rr nr) := by unfold Statement; revert nr; decide
theorem rej (nr : BitVec 1) : Statement (.rej nr) := by unfold Statement; revert nr; decide
theorem info (ns : BitVec 1) : Statement (.info ns) := by unfold Statement; revert ns; decide
theorem lit (b : Byte) : Statement (.lit b) := by unfold Statement; simp [rowMatchMask]
theorem escFlag : Statement .escFlag := by unfold Statement; decide
theorem escEsc : Statement .escEsc := by unfold Statement; decide
theorem endSym : Statement .endSym := by unfold Statement; decide
theorem escBad (x : Byte) : Statement (.escBad x) := by unfold Statement; revert x; decide

end Laws.FitsRow

end Sys2Proof
end

