-- ==== Sys2Proof/Laws/Stream.lean ====
section
/-! SUPPORT. What a receiver does with the parts of a byte stream: noise, flags, a header, a stuffed region. `rxRun` is
`takeBytes` without the host's lists. -/

namespace Sys2Proof.Machine

/-- The receiver and its events after the bytes. -/
def rxRun (cfg : Config) : Rx → List Byte → Rx × List Event
  | r, [] => (r, [])
  | r, b :: bs =>
    ((rxRun cfg (rxFeed cfg r b).1 bs).1, (rxFeed cfg r b).2 :: (rxRun cfg (rxFeed cfg r b).1 bs).2)

/-- `n` Continue events. -/
abbrev contEvents (n : Nat) : List Event := List.replicate n .cont

theorem takeBytes_eq_rxRun (s : State) (bs : List Byte) :
    takeBytes s bs = { s with rx := (rxRun s.cfg s.rx bs).1,
                              results := s.results ++ (rxRun s.cfg s.rx bs).2.map .event } := by
  induction bs generalizing s with
  | nil => simp [rxRun]
  | cons b bs ih => simp [ih, rxRun, takeByte, State.afterFeed, State.give]

theorem map_contEvents (n : Nat) : (contEvents n).map Result.event = conts n := by
  simp [contEvents, conts]

section Parts
variable (cfg : Config)

theorem rxRun_append (r : Rx) (bs cs : List Byte) :
    rxRun cfg r (bs ++ cs) =
      ((rxRun cfg (rxRun cfg r bs).1 cs).1, (rxRun cfg r bs).2 ++ (rxRun cfg (rxRun cfg r bs).1 cs).2) := by
  induction bs generalizing r with
  | nil => rfl
  | cons b bs ih => simp [rxRun, ih]

variable {cfg} {a c : Byte} {e : Bool} {buf : List Byte}

/-- Two parts of a stream, the first known. -/
theorem rxRun_append_of {r r' : Rx} {bs : List Byte} {es : List Event} (h : rxRun cfg r bs = (r', es))
    (cs : List Byte) : rxRun cfg r (bs ++ cs) = ((rxRun cfg r' cs).1, es ++ (rxRun cfg r' cs).2) := by
  rw [rxRun_append, h]

/-- Non-flag bytes in Start are noise (R142). -/
theorem rxRun_noise {bs : List Byte} (hb : ∀ b ∈ bs, b ≠ Wire.flag) :
    rxRun cfg ⟨.start, a, c, e, buf⟩ bs = (⟨.start, a, c, e, buf⟩, contEvents bs.length) := by
  induction bs with
  | nil => rfl
  | cons b bs ih =>
    have h1 : rxFeed cfg ⟨.start, a, c, e, buf⟩ b = (⟨.start, a, c, e, buf⟩, .cont) :=
      if_neg (hb b (by simp))
    rw [rxRun, h1, ih (fun x hx => hb x (by simp [hx]))]
    rfl

/-- Flags in FlagRcv are absorbed (R143). -/
theorem rxRun_flags (n : Nat) :
    rxRun cfg ⟨.flagRcv, a, c, e, buf⟩ (List.replicate n Wire.flag) =
      (⟨.flagRcv, a, c, e, buf⟩, contEvents n) := by
  induction n with
  | zero => rfl
  | succ n ih =>
    have h1 : rxFeed cfg ⟨.flagRcv, a, c, e, buf⟩ Wire.flag = (⟨.flagRcv, a, c, e, buf⟩, .cont) := rfl
    rw [List.replicate_succ, rxRun, h1, ih]
    rfl

/-- A flag in Start opens a frame (R142). -/
theorem rxFeed_open : rxFeed cfg ⟨.start, a, c, e, buf⟩ Wire.flag = (⟨.flagRcv, a, c, e, buf⟩, .cont) := rfl

/-- A flag and a header with a matching BCC1 open the frame's body (R142 to R145). -/
theorem rxRun_header {st : RxState} {a' : Byte} (c' : Byte) (hs : st = .start ∨ st = .flagRcv)
    (ha : a' ≠ Wire.flag) :
    rxRun cfg ⟨st, a, c, e, buf⟩ [Wire.flag, a', c', bcc1 a' c'] =
      (⟨.bccRcv, a', c', false, []⟩, contEvents 4) := by
  rcases hs with rfl | rfl <;>
    simp [rxRun, rxFeed, feedStart, feedFlagRcv, feedAddrRcv, feedCtrlRcv, ha, contEvents, List.replicate_succ]

/-- The closing flag of a supervisory frame (R146). -/
theorem rxFeed_close_supervisory (hc : classOf c = .supervisory) :
    rxFeed cfg ⟨.bccRcv, a, c, e, buf⟩ Wire.flag = (⟨.start, a, c, false, []⟩, .frameReady ⟨a, c, []⟩) := by
  simp [rxFeed, hc, feedSupervisory, deliver, toStart]

/-- The closing flag of an information frame, with a byte held for BCC2 (R148). -/
theorem rxFeed_close_info (hc : classOf c = .info) (p : List Byte) (b2 : Byte) :
    rxFeed cfg ⟨.bccRcv, a, c, false, p ++ [b2]⟩ Wire.flag =
      (⟨.start, a, c, false, []⟩,
        if xorAll p = b2 then .frameReady ⟨a, c, p⟩ else .error .checksumMismatch) := by
  by_cases h : xorAll p = b2 <;>
    simp [rxFeed, hc, feedRegion, closeInfo, h, deliver, raiseError, toStart]

/-- A literal byte in the region, with room (R148, R43). -/
theorem rxFeed_literal (hc : classOf c = .info) {b : Byte} (hf : b ≠ Wire.flag) (he : b ≠ Wire.esc)
    (hroom : ∀ m, cfg.maxPayload = some m → buf.length ≠ m + 1) :
    rxFeed cfg ⟨.bccRcv, a, c, false, buf⟩ b = (⟨.bccRcv, a, c, false, buf ++ [b]⟩, .cont) := by
  have hfull : bufFull cfg ⟨.bccRcv, a, c, false, buf⟩ = false := by
    rw [← Bool.not_eq_true, bufFull_iff]; rintro ⟨m, h1, h2⟩; exact hroom m h1 h2
  simp [rxFeed, hc, feedRegion, hf, he, append_room _ hfull]

/-- An escape pair in the region, with room: its literal byte is held (R148, R149, R43). -/
theorem rxRun_sym (hc : classOf c = .info) (b : Byte)
    (hroom : ∀ m, cfg.maxPayload = some m → buf.length ≠ m + 1) :
    rxRun cfg ⟨.bccRcv, a, c, false, buf⟩ (sym b) =
      (⟨.bccRcv, a, c, false, buf ++ [b]⟩, contEvents (sym b).length) := by
  have hfull : bufFull cfg ⟨.bccRcv, a, c, false, buf⟩ = false := by
    rw [← Bool.not_eq_true, bufFull_iff]; rintro ⟨m, h1, h2⟩; exact hroom m h1 h2
  by_cases hf : b = Wire.flag
  · subst hf
    simp [sym_flag, rxRun, rxFeed, hc, feedRegion, feedSuccessor, append_room _ hfull, clearEsc, contEvents,
      List.replicate_succ]
  · by_cases he : b = Wire.esc
    · subst he
      simp [sym_esc, rxRun, rxFeed, hc, feedRegion, feedSuccessor, append_room _ hfull, clearEsc, contEvents,
        List.replicate_succ]
    · simp [sym_literal hf he, rxRun, rxFeed_literal hc hf he hroom, contEvents]

/-- A stuffed sequence, with room for it, is held destuffed (R148, R149, R43). -/
theorem rxRun_stuffed (hc : classOf c = .info) (d : List Byte)
    (hroom : ∀ m, cfg.maxPayload = some m → buf.length + d.length ≤ m + 1) :
    rxRun cfg ⟨.bccRcv, a, c, false, buf⟩ (stuff d) =
      (⟨.bccRcv, a, c, false, buf ++ d⟩, contEvents (stuff d).length) := by
  induction d generalizing buf with
  | nil => simp [stuff, rxRun, contEvents]
  | cons b d ih =>
    rw [stuff_cons, rxRun_append_of (rxRun_sym hc b (fun m hm => by have := hroom m hm; simp at this; omega)),
      ih (fun m hm => by have := hroom m hm; simp at this ⊢; omega)]
    simp [contEvents]

end Parts

/-- What destuffs is the stuffing of what it destuffs to. -/
theorem stuff_of_destuff {body d : List Byte} (h : destuff body = some d) : body = stuff d := by
  induction body using destuff.induct generalizing d with
  | case1 => simp [destuff] at h; subst h; rfl
  | case2 s => cases s <;> simp [destuff] at h
  | case3 => simp [destuff] at h
  | case4 s _ ih =>
    simp only [destuff, esc_ne_flag, if_true, if_false, Option.map_eq_some_iff] at h
    obtain ⟨d', h', rfl⟩ := h
    rw [ih h']; rfl
  | case5 s _ _ ih =>
    simp only [destuff, esc_ne_flag, escEscSucc_ne_escFlagSucc, if_true, if_false, Option.map_eq_some_iff] at h
    obtain ⟨d', h', rfl⟩ := h
    rw [ih h']; rfl
  | case6 x s h1 h2 _ => simp [destuff, h1, h2] at h
  | case7 b s h1 h2 ih =>
    rw [destuff_literal s h1 h2, Option.map_eq_some_iff] at h
    obtain ⟨d', h', rfl⟩ := h
    rw [ih h', stuff_cons, sym_literal h1 h2]
    rfl

end Sys2Proof.Machine
end

