-- ==== Sys2Proof/Tests/Slice0.lean ====
section
/-! SUPPORT. Tests. Expected results are written from the spec: its encoding tables (30_encoding.md R70, R76, R83), its
worked examples and its derived vectors (95_test_vectors.md); each test names its source. The theorems `witness_…` show
that the hypotheses of the obligation they are named after can be met, clause by clause. -/

namespace Sys2Proof.Tests

open Sys2Proof.Machine

/-- A small state: the receiver's fields and `MAX_PAYLOAD`, nothing issued, no results. -/
def at' (m : Option Nat) (st : RxState) (a c : Byte) (e : Bool) (buf : List Byte) : State :=
  { rx := { state := st, addr := a, ctrl := c, esc := e, buf := buf }, cfg := { maxPayload := m },
    pending := [], results := [] }

/-- The same with something for the host to issue. -/
def issuing (s : State) (p : List Issue) : State := { s with pending := p }

/-- The state after an outcome. -/
def after : Host.Outcome State Fault Refusal → Option State
  | .next t => some t
  | .fault _ => none
  | .refused _ => none

/-! ### WellFormed refuses each ill-formed term (R76) -/

theorem test_lit_flag_is_ill_formed : (Instr.lit 0x7E#8).wellFormed = false := by decide
theorem test_lit_esc_is_ill_formed : (Instr.lit 0x7D#8).wellFormed = false := by decide
theorem test_esc_bad_5E_is_ill_formed : (Instr.escBad 0x5E#8).wellFormed = false := by decide
theorem test_esc_bad_5D_is_ill_formed : (Instr.escBad 0x5D#8).wellFormed = false := by decide

/-! ### Decoding, each row by words written from the spec's encoding -/

/-- R83: op 00, data ignored; op 01, data the byte 0x7E (R84: word 0x17E). -/
theorem test_decode_reset_and_feed :
    decode (.command 0b00_11111111#10 Frame.zero []) = .ok .reset ∧
    decode (.command 0b01_01111110#10 Frame.zero []) = .ok (.feed 0x7E#8) := by decide

/-- R83: op 10 and op 11, data ignored, operands on their channels. -/
theorem test_decode_encode_and_decode :
    decode (.command 0b10_10101010#10 { addr := 0x03#8, ctrl := 0x00#8, payload := [0x01#8] } []) =
      .ok (.encode { addr := 0x03#8, ctrl := 0x00#8, payload := [0x01#8] }) ∧
    decode (.command 0b11_00000001#10 Frame.zero [0x7E#8]) = .ok (.decode [0x7E#8]) := by decide

/-- R70's bit patterns. -/
theorem test_decode_set_ua_disc :
    decode (.control 0b00000011#8) = .ok .set ∧ decode (.control 0b00000111#8) = .ok .ua ∧
    decode (.control 0b00001011#8) = .ok .disc := by decide

theorem test_decode_rr_rej_info :
    decode (.control 0b00000101#8) = .ok (.rr 0) ∧ decode (.control 0b10000101#8) = .ok (.rr 1) ∧
    decode (.control 0b00000001#8) = .ok (.rej 0) ∧ decode (.control 0b10000001#8) = .ok (.rej 1) ∧
    decode (.control 0b00000000#8) = .ok (.info 0) ∧ decode (.control 0b01000000#8) = .ok (.info 1) := by decide

/-- R73's examples of Unassigned values. -/
theorem test_unassigned_controls_rejected :
    decode (.control 0x83#8) = .error (.unassignedControl 0x83#8) ∧
    decode (.control 0xC0#8) = .error (.unassignedControl 0xC0#8) ∧
    decode (.control 0x80#8) = .error (.unassignedControl 0x80#8) ∧
    decode (.control 0x7E#8) = .error (.unassignedControl 0x7E#8) := by decide

/-- R76's wire bytes. -/
theorem test_decode_symbols :
    decode (.symbol [0x41#8]) = .ok (.lit 0x41#8) ∧ decode (.symbol [0x7D#8, 0x5E#8]) = .ok .escFlag ∧
    decode (.symbol [0x7D#8, 0x5D#8]) = .ok .escEsc ∧ decode (.symbol [0x7E#8]) = .ok .endSym ∧
    decode (.symbol [0x7D#8, 0x7E#8]) = .ok (.escBad 0x7E#8) := by decide

theorem test_broken_symbols_rejected :
    decode (.symbol []) = .error .noSymbol ∧ decode (.symbol [0x7D#8]) = .error .truncatedEscape ∧
    decode (.symbol [0x41#8, 0x42#8]) = .error .trailingBytes := by decide

/-- The table's numbers, one for each row. -/
theorem test_table_words_commands :
    decodeTableWord 16 0x000 = some .reset ∧ decodeTableWord 16 0x1AB = some (.feed 0xAB#8) ∧
    decodeTableWord 16 0x200 = some (.encode Frame.zero) ∧ decodeTableWord 16 0x300 = some (.decode []) := by decide

theorem test_table_words_frame_types :
    decodeTableWord 8 0x03 = some .set ∧ decodeTableWord 8 0x07 = some .ua ∧ decodeTableWord 8 0x0B = some .disc ∧
    decodeTableWord 8 0x85 = some (.rr 1) ∧ decodeTableWord 8 0x81 = some (.rej 1) ∧
    decodeTableWord 8 0x40 = some (.info 1) := by decide

theorem test_table_words_symbols :
    decodeTableWord 8 0x41 = some (.lit 0x41#8) ∧ decodeTableWord 16 0x7D5E = some .escFlag ∧
    decodeTableWord 16 0x7D5D = some .escEsc ∧ decodeTableWord 8 0x7E = some .endSym ∧
    decodeTableWord 16 0x7D00 = some (.escBad 0x00#8) := by decide

/-! ### One step of each instruction -/

/-- VF1 and program P1 step 1: a flag in Start. -/
theorem test_feed_flag_in_start :
    after (step (issuing State.reset [.command 0x17E#10 Frame.zero []])) =
      some { at' none .flagRcv 0x00#8 0x00#8 false [] with results := [.event .cont] } := by decide

/-- VF7: a flag that does not match BCC1 is a BccMismatch and is consumed. -/
theorem test_feed_flag_as_bcc1 :
    after (exec (.feed 0x7E#8) (at' none .ctrlRcv 0x03#8 0x03#8 false [])) =
      some { at' none .start 0x03#8 0x03#8 false [] with results := [.event (.error .bccMismatch)] } := by decide

/-- VR2: RESET drops a partial frame without an event. -/
theorem test_reset_drops_partial_frame :
    after (exec .reset (at' none .bccRcv 0x03#8 0x00#8 false [0x01#8])) =
      some (at' none .start 0x00#8 0x00#8 false []) := by decide

/-- VE11: escapes in the payload. -/
theorem test_encode_VE11 :
    after (exec (.encode { addr := 0x03#8, ctrl := 0x40#8, payload := [0x7E#8, 0x11#8, 0x7D#8] }) State.reset) =
      some { State.reset with results := [.bytes [0x7E#8, 0x03#8, 0x40#8, 0x43#8, 0x7D#8, 0x5E#8, 0x11#8,
        0x7D#8, 0x5D#8, 0x12#8, 0x7E#8]] } := by decide

/-- VE18: a BCC1 of 0x7E is written raw. -/
theorem test_encode_VE18 :
    encodeFrame { addr := 0x7D#8, ctrl := 0x03#8, payload := [] } =
      [0x7E#8, 0x7D#8, 0x03#8, 0x7E#8, 0x7E#8] := by decide

/-- VD6: the header checksum is checked before the address. -/
theorem test_decode_VD6 :
    after (exec (.decode [0x7E#8, 0x7E#8, 0x03#8, 0x03#8, 0x00#8, 0x7E#8]) State.reset) =
      some { State.reset with results := [.verdict (.err .checksumMismatch)] } := by decide

/-- VD34 and VD35: the bound is on the payload, not on the payload with its BCC2. -/
theorem test_decode_VD34_VD35 :
    decodeFrame { maxPayload := some 1 } [0x7E#8, 0x03#8, 0x00#8, 0x03#8, 0x01#8, 0x02#8, 0x03#8, 0x7E#8] =
      .err .malformed ∧
    decodeFrame { maxPayload := some 1 } [0x7E#8, 0x03#8, 0x00#8, 0x03#8, 0x01#8, 0x01#8, 0x7E#8] =
      .ok { addr := 0x03#8, ctrl := 0x00#8, payload := [0x01#8] } := by decide

/-- The frame-type rows in AddrRcv latch the code of R70; each runs as the first step after reset. -/
theorem test_frame_types_latch :
    (after (step (State.reset.withFetchWord 8 0x03))).map (fun t => (t.rx.state, t.rx.ctrl)) =
      some (.ctrlRcv, 0x03#8) ∧
    (after (step (State.reset.withFetchWord 8 0x07))).map (fun t => (t.rx.state, t.rx.ctrl)) =
      some (.ctrlRcv, 0x07#8) ∧
    (after (step (State.reset.withFetchWord 8 0x0B))).map (fun t => (t.rx.state, t.rx.ctrl)) =
      some (.ctrlRcv, 0x0B#8) ∧
    (after (step (State.reset.withFetchWord 8 0x85))).map (fun t => (t.rx.state, t.rx.ctrl)) =
      some (.ctrlRcv, 0x85#8) ∧
    (after (step (State.reset.withFetchWord 8 0x01))).map (fun t => (t.rx.state, t.rx.ctrl)) =
      some (.ctrlRcv, 0x01#8) ∧
    (after (step (State.reset.withFetchWord 8 0x40))).map (fun t => (t.rx.state, t.rx.ctrl)) =
      some (.ctrlRcv, 0x40#8) := by decide

/-- VF28: an escape pair is held as one byte, also where it fills the buffer. -/
theorem test_esc_flag_symbol :
    after (exec .escFlag (at' (some 0) .bccRcv 0x03#8 0x00#8 false [])) =
      some { at' (some 0) .bccRcv 0x03#8 0x00#8 false [0x7E#8] with results := [.event .cont, .event .cont] } := by
  decide

/-- VF23: a destuffed byte overflows like a literal; the same for ESC_ESC. -/
theorem test_esc_esc_symbol_overflows :
    after (exec .escEsc (at' (some 0) .bccRcv 0x03#8 0x00#8 false [0x7E#8])) =
      some { at' (some 0) .start 0x03#8 0x00#8 false [] with
        results := [.event .cont, .event (.error .malformed)] } := by decide

/-- VF21: the third stuffed-region byte overflows a buffer of two. -/
theorem test_lit_symbol_overflows :
    after (exec (.lit 0x03#8) (at' (some 1) .bccRcv 0x03#8 0x00#8 false [0x01#8, 0x02#8])) =
      some { at' (some 1) .start 0x03#8 0x00#8 false [] with results := [.event (.error .malformed)] } := by decide

/-- VF14 and VF12: END with a good checksum, and with no BCC2. -/
theorem test_end_symbol :
    after (exec .endSym (at' none .bccRcv 0x03#8 0x00#8 false [0x01#8, 0x02#8, 0x03#8])) =
      some { at' none .start 0x03#8 0x00#8 false [] with results :=
        [.event (.frameReady { addr := 0x03#8, ctrl := 0x00#8, payload := [0x01#8, 0x02#8] })] } ∧
    after (exec .endSym (at' none .bccRcv 0x03#8 0x00#8 false [])) =
      some { at' none .start 0x03#8 0x00#8 false [] with results := [.event (.error .malformed)] } := by decide

/-- VF19: `7D 7E` is Malformed and the flag is consumed. -/
theorem test_esc_bad_symbol :
    after (exec (.escBad 0x7E#8) (at' none .bccRcv 0x03#8 0x00#8 false [])) =
      some { at' none .start 0x03#8 0x00#8 false [] with
        results := [.event .cont, .event (.error .malformed)] } := by decide

/-- VR3: the status port with a full buffer and an escape pending. -/
theorem test_status_port_VR3 :
    (at' (some 0) .bccRcv 0x03#8 0x00#8 true [0x7E#8]).rxStatus = 0x0C#8 ∧
    (at' (some 0) .bccRcv 0x03#8 0x00#8 true [0x7E#8]).rxLen = 1 := by decide

/-- R75's corner: the BCC1 of every assigned code with the two conventional addresses is neither FLAG nor ESC. -/
theorem test_conventional_headers_hold_no_reserved_byte :
    ∀ c : Byte, classOf c ≠ .unassigned → c ≠ 0x7E#8 ∧ c ≠ 0x7D#8 ∧
      bcc1 0x03#8 c ≠ 0x7E#8 ∧ bcc1 0x03#8 c ≠ 0x7D#8 ∧ bcc1 0x01#8 c ≠ 0x7E#8 ∧ bcc1 0x01#8 c ≠ 0x7D#8 := by
  decide

/-- The R70 rows do not overlap: a code is in exactly one row. -/
theorem test_control_rows_disjoint :
    List.Pairwise (fun r q : Byte × Byte => r.2 &&& (q.1 &&& r.1) ≠ q.2 &&& (q.1 &&& r.1))
      [(0xFF#8, 0x03#8), (0xFF#8, 0x07#8), (0xFF#8, 0x0B#8), (0x7F#8, 0x05#8), (0x7F#8, 0x01#8),
       (0xBF#8, 0x00#8)] := by decide

/-! ### Witnesses of the obligations' hypotheses -/

theorem witness_CommandWordSelectsCommand :
    (0x0FF#10 : CommandWord).extractLsb' 8 2 = 0b00#2 ∧ (0x100#10 : CommandWord).extractLsb' 8 2 = 0b01#2 ∧
    (0x200#10 : CommandWord).extractLsb' 8 2 = 0b10#2 ∧ (0x3FF#10 : CommandWord).extractLsb' 8 2 = 0b11#2 := by
  decide

theorem witness_SymbolsAreReadFromTheirFirstByte :
    (0x7F#8 : Byte) ≠ 0x7E#8 ∧ (0x7F#8 : Byte) ≠ 0x7D#8 ∧ (0x7E#8 : Byte) ≠ 0x5E#8 ∧ (0x7E#8 : Byte) ≠ 0x5D#8 := by
  decide

theorem witness_DecodeOfEncodeIsIdentity :
    (Instr.lit 0x7F#8).wellFormed = true ∧ (Instr.escBad 0x7E#8).wellFormed = true ∧
    (Instr.decode [0x7E#8]).wellFormed = true := by decide

theorem witness_EncodeOfDecodeUpToIgnoredBits :
    decode (.control 0x81#8) = .ok (.rej 1) ∧ decode (.symbol [0x7D#8, 0x7D#8]) = .ok (.escBad 0x7D#8) ∧
    (0x1FF#10 : CommandWord).extractLsb' 8 2 = 0b01#2 ∧ (0x2FF#10 : CommandWord).extractLsb' 8 2 = 0b10#2 ∧
    (0x300#10 : CommandWord).extractLsb' 8 2 = 0b11#2 := by decide

theorem witness_StepRunsIssuedCommand :
    (issuing State.reset [.command 0x17E#10 Frame.zero []]).pending = .command 0x17E#10 Frame.zero [] :: [] := rfl

/-- The five clauses, in order. -/
theorem witness_StepRunsStreamRow :
    ((at' none .addrRcv 0x03#8 0x00#8 false []).rx.state = .addrRcv ∧ decodeControl 0x40#8 = .ok (.info 1)) ∧
    ((at' none .addrRcv 0x03#8 0x00#8 false []).rx.state = .addrRcv ∧ classOf 0x7E#8 = .unassigned) ∧
    ((at' none .bccRcv 0x03#8 0x00#8 false []).InRegion ∧ (at' none .bccRcv 0x03#8 0x00#8 false []).rx.esc = false ∧
      decodeSymbol [0x7D#8, 0x7D#8] = .ok (.escBad 0x7D#8, [])) ∧
    ((at' none .bccRcv 0x03#8 0x40#8 false []).InRegion ∧ (at' none .bccRcv 0x03#8 0x40#8 false []).rx.esc = false) ∧
    ((at' none .bccRcv 0x03#8 0x00#8 true []).rx.state ≠ .addrRcv ∧
      ¬ ((at' none .bccRcv 0x03#8 0x00#8 true []).InRegion ∧ (at' none .bccRcv 0x03#8 0x00#8 true []).rx.esc = false)) ∧
    (issuing State.reset [.feedStar 0x7D#8 [0x7D#8]]).pending = .feedStar 0x7D#8 [0x7D#8] :: [] := by decide

theorem witness_IdleStepChangesNothing : State.reset.pending = [] := rfl

theorem witness_FetchWordRunsItsInstruction :
    decodeTableWord 16 0x3FF = some (.decode []) ∧ 8 < 16 ∧ 0x3FF < 1024 ∧
    decodeTableWord 8 0x7E = some .endSym ∧ decodeTableWord 16 0x7DFF = some (.escBad 0xFF#8) := by decide

theorem witness_FeedInStart :
    State.reset.rx.state = .start ∧ (0x7E#8 : Byte) = 0x7E#8 ∧ (0x7D#8 : Byte) ≠ 0x7E#8 := by decide

theorem witness_FeedInFlagRcv :
    (at' none .flagRcv 0x00#8 0x00#8 false []).rx.state = .flagRcv ∧ (0x7D#8 : Byte) ≠ 0x7E#8 := by decide

theorem witness_FeedInAddrRcv : (at' none .addrRcv 0x03#8 0x00#8 false []).rx.state = .addrRcv := rfl

theorem witness_FeedInCtrlRcv :
    (at' none .ctrlRcv 0x7D#8 0x03#8 false []).rx.state = .ctrlRcv ∧ (0x7E#8 : Byte) = 0x7D#8 ^^^ 0x03#8 ∧
    (0x7D#8 : Byte) ≠ 0x7D#8 ^^^ 0x03#8 := by decide

theorem witness_FeedAfterSupervisoryHeader :
    (at' none .bccRcv 0x03#8 0x85#8 false []).rx.state = .bccRcv ∧ classOf 0x85#8 = .supervisory ∧
    (0x7D#8 : Byte) ≠ 0x7E#8 := by decide

theorem witness_FeedAfterUnassignedHeader :
    (at' none .bccRcv 0x03#8 0x7E#8 false []).rx.state = .bccRcv ∧ classOf 0x7E#8 = .unassigned := by decide

/-- The region open with no escape: an empty buffer, a buffer with a good and with a bad BCC2, a full buffer (m = 0), and
one with room (m = 1). -/
theorem witness_FeedInStuffedRegion :
    (at' (some 0) .bccRcv 0x03#8 0x40#8 false []).InRegion ∧
    (at' (some 0) .bccRcv 0x03#8 0x40#8 false []).rx.esc = false ∧
    ([0x00#8] : List Byte) = [] ++ [0x00#8] ∧ xorAll [] = 0x00#8 ∧
    ([0x05#8, 0x04#8] : List Byte) = [0x05#8] ++ [0x04#8] ∧ xorAll [0x05#8] ≠ 0x04#8 ∧
    (0x7F#8 : Byte) ≠ 0x7E#8 ∧ (0x7F#8 : Byte) ≠ 0x7D#8 ∧
    bufFull { maxPayload := some 0 } (at' (some 0) .bccRcv 0x03#8 0x40#8 false [0x01#8]).rx = true ∧
    bufFull { maxPayload := some 1 } (at' (some 1) .bccRcv 0x03#8 0x40#8 false [0x01#8]).rx = false := by decide

theorem witness_Full_and_not_Full :
    (at' (some 0) .bccRcv 0x03#8 0x40#8 false [0x01#8]).Full ∧
    ¬ (at' none .bccRcv 0x03#8 0x40#8 false [0x01#8]).Full := by
  refine ⟨⟨0, rfl, rfl⟩, ?_⟩
  rintro ⟨m, h, -⟩
  cases h

theorem witness_FeedAfterEscape :
    (at' none .bccRcv 0x03#8 0x00#8 true []).InRegion ∧ (at' none .bccRcv 0x03#8 0x00#8 true []).rx.esc = true ∧
    (0x7E#8 : Byte) ≠ 0x5E#8 ∧ (0x7E#8 : Byte) ≠ 0x5D#8 := by decide

theorem witness_AppendWritesOrOverflows :
    (⟨some 0⟩ : Config).maxPayload = some 0 ∧ (at' (some 0) .bccRcv 0x03#8 0x40#8 false [0x01#8]).rx.buf.length = 0 + 1 ∧
    ∀ m, (⟨none⟩ : Config).maxPayload = some m → ([] : List Byte).length ≠ m + 1 :=
  ⟨rfl, rfl, fun _ h => nomatch h⟩

/-- A FEED that gives FrameReady and one that gives Continue in Start. -/
theorem witness_OneEventPerFeed :
    Event.frameReady Frame.zero ≠ .cont ∧ State.reset.rx.state = .start := by decide

theorem witness_ErrorEntry :
    ∃ t, exec (.feed 0x7E#8) (at' none .ctrlRcv 0x03#8 0x03#8 true [0x01#8]) = .next t ∧
      t.results = [] ++ [.event (.error .bccMismatch)] := ⟨_, rfl, by decide⟩

theorem witness_FrameTypeLatchesControl : (at' none .addrRcv 0x01#8 0x00#8 false []).rx.state = .addrRcv := rfl

/-- The hypotheses of LiteralSymbolsInRegion and ClosingSymbolsInRegion. -/
theorem witness_SymbolsInRegion :
    (at' (some 0) .bccRcv 0x03#8 0x00#8 false []).InRegion ∧ (at' (some 0) .bccRcv 0x03#8 0x00#8 false []).rx.esc = false ∧
    (at' (some 0) .bccRcv 0x03#8 0x00#8 false [0x00#8]).rx.buf = [] ++ [0x00#8] ∧
    xorAll [] = 0x00#8 ∧ xorAll [0x01#8] ≠ 0x00#8 ∧ (0x7E#8 : Byte) ≠ 0x5E#8 ∧ (0x7E#8 : Byte) ≠ 0x5D#8 := by decide

theorem witness_EncodeEmitsFrame : classOf 0x40#8 = .info ∧ classOf 0x83#8 ≠ .info := by decide

theorem witness_StuffingLaws : (stuff [0x11#8, 0x7D#8])[1]? = some 0x7D#8 := by decide

theorem witness_FlagPositionsInEncoding :
    (encodeFrame { addr := 0x7D#8, ctrl := 0x03#8, payload := [] })[3]? = some 0x7E#8 ∧
    Valid { maxPayload := some 0 } { addr := 0x03#8, ctrl := 0x40#8, payload := [] } := by decide

/-- DecodeChecksInOrder clause by clause. -/
theorem witness_DecodeChecksInOrder :
    ([0x7E#8, 0x03#8, 0x03#8, 0x00#8] : List Byte).length < 5 ∧
    (0x7D#8 : Byte) = 0x7E#8 ^^^ 0x03#8 ∧ classOf 0x83#8 = .unassigned ∧ classOf 0x0B#8 = .supervisory ∧
    classOf 0x00#8 = .info ∧ destuff [0x7D#8] = none ∧ destuff [] = some [] ∧
    destuff [0x01#8, 0x02#8] = some ([0x01#8] ++ [0x02#8]) ∧ 0 + 1 < ([0x01#8] ++ [0x02#8] : List Byte).length ∧
    xorAll [0x01#8] ≠ 0x02#8 ∧ xorAll [0x01#8] = 0x01#8 := by decide

theorem witness_ValidFrames :
    Valid { maxPayload := some 2 } { addr := 0x03#8, ctrl := 0x00#8, payload := [0x7E#8, 0x7D#8] } ∧
    Valid { maxPayload := none } { addr := 0x7D#8, ctrl := 0x03#8, payload := [] } := by decide

/-- DecodeOfEncodedInvalidFrame clause by clause. -/
theorem witness_InvalidFrames :
    ¬ Valid { maxPayload := none } { addr := 0x7E#8, ctrl := 0x03#8, payload := [] } ∧
    ¬ Valid { maxPayload := none } { addr := 0x03#8, ctrl := 0x83#8, payload := [] } ∧
    ¬ Valid { maxPayload := some 0 } { addr := 0x03#8, ctrl := 0x00#8, payload := [0x01#8] } ∧
    ¬ Valid { maxPayload := none } { addr := 0x03#8, ctrl := 0x03#8, payload := [0x55#8] } := by decide

theorem witness_SingleBitFlipIsDetected :
    Valid { maxPayload := none } { addr := 0x03#8, ctrl := 0x40#8, payload := [0x7E#8] } ∧
    (encodeFrame { addr := 0x03#8, ctrl := 0x40#8, payload := [0x7E#8] })[4]? = some 0x7D#8 := by decide

theorem witness_StepKeepsDeliveredFramesValid :
    State.Sound State.reset ∧ step State.reset = .next State.reset :=
  ⟨⟨⟨by decide, by decide, (fun m h => nomatch h), by decide⟩, by decide, (fun f h => nomatch h)⟩, rfl⟩

theorem witness_StepKeepsReceiverInvariants : State.reset.Inv ∧ step State.reset = .next State.reset :=
  ⟨witness_StepKeepsDeliveredFramesValid.1.inv, rfl⟩

theorem witness_EveryReachableReceiverIsSound :
    ∃ t, core.run 1 (issuing (State.powerOn (some 3)) [.feedStar 0x7E#8 [0x03#8]]) = .next t := ⟨_, rfl⟩

theorem witness_StreamRunIsItsFeeds :
    (issuing State.reset [.feedStar 0x7E#8 [0x03#8, 0x03#8]]).pending = .feedStar 0x7E#8 [0x03#8, 0x03#8] :: [] := rfl

theorem witness_NoiseIsSilent :
    State.reset.rx.state = .start ∧ (∀ b ∈ ([0x7D#8, 0x5E#8] : List Byte), b ≠ 0x7E#8) ∧ 0 < 1 ∧
    (at' none .flagRcv 0x00#8 0x00#8 false []).rx.state = .flagRcv := by decide

theorem witness_NoiseIsSilent_error :
    ∃ t, exec (.feed 0x01#8) (at' none .bccRcv 0x03#8 0x03#8 false []) = .next t ∧
      t.results = [] ++ [.event (.error .malformed)] := ⟨_, rfl, by decide⟩

/-- VD11 on a receiver in FlagRcv. -/
theorem witness_FeedAcceptsWhatDecodeAccepts :
    exec (.decode [0x7E#8, 0x03#8, 0x00#8, 0x03#8, 0x00#8, 0x7E#8]) (at' none .flagRcv 0x00#8 0x00#8 false []) =
      .next { at' none .flagRcv 0x00#8 0x00#8 false [] with results :=
        [] ++ [.verdict (.ok { addr := 0x03#8, ctrl := 0x00#8, payload := [] })] } := by
  have h : decodeFrame { maxPayload := none } [0x7E#8, 0x03#8, 0x00#8, 0x03#8, 0x00#8, 0x7E#8] =
      .ok { addr := 0x03#8, ctrl := 0x00#8, payload := [] } := by decide
  show Host.Outcome.next _ = _
  rw [show (at' none .flagRcv 0x00#8 0x00#8 false []).cfg = { maxPayload := none } from rfl, h]
  rfl

theorem witness_ReceiverAcceptsEncodedFrames :
    (∀ g ∈ [(([0x00#8, 0x55#8] : List Byte), 3, ({ addr := 0x03#8, ctrl := 0x40#8, payload := [0x7E#8] } : Frame))],
      (∀ b ∈ g.1, b ≠ 0x7E#8) ∧ Valid { maxPayload := some 1 } g.2.2) ∧
    (∀ b ∈ ([0x7D#8] : List Byte), b ≠ 0x7E#8) := by decide

/-- Programs P3 (the Error) and P3a (exception (a)), and a frame for exception (b). -/
theorem witness_ResynchronizesAfterCorruptedFlag :
    (Valid { maxPayload := none } { addr := 0x03#8, ctrl := 0x00#8, payload := [0x01#8, 0x02#8, 0x03#8] } ∧
      (encodeFrame { addr := 0x03#8, ctrl := 0x00#8, payload := [0x01#8, 0x02#8, 0x03#8] })[5]? = some 0x02#8) ∧
    (destuff (((encodeFrame { addr := 0x03#8, ctrl := 0x00#8, payload := [0x05#8, 0x05#8, 0x09#8] }).take 6).drop 4) =
      some [0x05#8, 0x05#8] ∧ xorAll [0x05#8, 0x05#8] = 0x00#8) ∧
    (Valid { maxPayload := none } { addr := 0x00#8, ctrl := 0x00#8, payload := [0x00#8] } ∧
      (encodeFrame { addr := 0x00#8, ctrl := 0x00#8, payload := [0x00#8] })[1]? = some 0x00#8) := by decide

theorem witness_SharedFlagLosesSecondFrame :
    Valid { maxPayload := none } { addr := 0x03#8, ctrl := 0x03#8, payload := [] } ∧
    Valid { maxPayload := none } { addr := 0x03#8, ctrl := 0x07#8, payload := [] } ∧
    (0x07#8 : Byte) ≠ 0x7E#8 ∧ (0x03#8 : Byte) ^^^ 0x07#8 ≠ 0x7E#8 := by decide

theorem witness_OversizePayloadIsMalformed :
    (0x03#8 : Byte) ≠ 0x7E#8 ∧ classOf 0x00#8 = .info ∧ 0 < ([0x01#8] : List Byte).length := by decide

theorem witness_UnitsShareNoState :
    unitOf (.encode Frame.zero) ≠ .rx ∧ unitOf (.decode [0x7E#8]) ≠ .rx ∧ unitOf (.lit 0x41#8) = .rx := by decide

theorem witness_UnreadLatchesAreUnobservable :
    Rx.Agree (at' none .flagRcv 0x00#8 0x00#8 false []).rx (at' none .flagRcv 0x03#8 0x7E#8 false []).rx :=
  ⟨rfl, rfl, rfl, by decide, by decide⟩

end Sys2Proof.Tests
end

section
/-! PROOFS. The obligation of 00_scope.md. -/

namespace Sys2Proof.Proofs
open Sys2Proof.Machine

/-- Settles O31, from the two equations of the running XOR in the laws of the codec. -/
theorem runningXor : Obligations.RunningXor := by
  unfold Obligations.RunningXor
  exact ⟨xorAll_nil, xorAll_concat⟩

end Sys2Proof.Proofs
end

section
/-! PROOFS. What 10_state.md's statements share: what a command can do to the state, what one FEED can do to the
receiver, and the induction over steps and runs. -/

namespace Sys2Proof.Machine

/-! ### What a command can do -/

/-- A command of the TX unit or the checker only adds a result that is no event and does not depend on the receiver
(R5, R21). -/
theorem exec_of_unit_ne_rx {i : Instr} (s : State) (hu : unitOf i ≠ .rx) :
    ∃ x, eventsOf [x] = [] ∧ ∀ r : Rx, exec i { s with rx := r } = .next ({ s with rx := r }.give x) := by
  cases i with
  | encode f => exact ⟨.bytes (encodeFrame f), rfl, fun _ => rfl⟩
  | decode raw => exact ⟨.verdict (decodeFrame s.cfg raw), rfl, fun _ => rfl⟩
  | _ => exact absurd rfl hu

/-- All that a command can do: reset the receiver, take its wire bytes, or add a result that is no event. -/
theorem exec_cases (i : Instr) (s : State) :
    (i = .reset ∧ exec i s = .next { s with rx := Rx.reset }) ∨
    (unitOf i = .rx ∧ exec i s = .next (takeBytes s (wireBytes i))) ∨
    (unitOf i ≠ .rx ∧ ∃ x, eventsOf [x] = [] ∧ exec i s = .next (s.give x)) := by
  by_cases hr : i = .reset
  · subst hr; exact .inl ⟨rfl, exec_reset s⟩
  · by_cases hu : unitOf i = .rx
    · exact .inr (.inl ⟨hu, exec_wire s hr hu⟩)
    · obtain ⟨x, hx, hexec⟩ := exec_of_unit_ne_rx s hu
      exact .inr (.inr ⟨hu, x, hx, hexec s.rx⟩)

/-- A run of one step more is a step and the run of the rest. -/
theorem run_succ_next {n : Nat} {s t : State} (h : core.run (n + 1) s = .next t) :
    ∃ u, step s = .next u ∧ core.run n u = .next t := by
  have hstep : core.step s = step s := rfl
  cases hu : step s with
  | next u => exact ⟨u, rfl, by simpa only [Host.Core.run, hstep, hu] using h⟩
  | fault r => cases r
  | refused r => simp only [Host.Core.run, hstep, hu] at h; cases h

/-- A predicate that the operations of the model keep: what the host has to issue does not matter to it, and RESET, the
taking of one byte and a result that is no event preserve it. -/
structure Preserved (P : State → Prop) : Prop where
  pending  : ∀ s p, P s → P { s with pending := p }
  reset    : ∀ s, P s → P { s with rx := Rx.reset }
  takeByte : ∀ s b, P s → P (takeByte s b)
  give     : ∀ s x, eventsOf [x] = [] → P s → P (s.give x)

namespace Preserved
variable {P : State → Prop} {s t : State}

theorem of_takeBytes (hP : Preserved P) (hs : P s) (bs : List Byte) : P (takeBytes s bs) := by
  induction bs generalizing s with
  | nil => exact hs
  | cons b bs ih => exact ih (hP.takeByte s b hs)

theorem of_exec (hP : Preserved P) {i : Instr} (hs : P s) (h : exec i s = .next t) : P t := by
  rcases exec_cases i s with ⟨-, he⟩ | ⟨-, he⟩ | ⟨-, x, hx, he⟩ <;>
    obtain rfl := Host.Outcome.next.inj (he.symm.trans h)
  · exact hP.reset s hs
  · exact hP.of_takeBytes hs _
  · exact hP.give s x hx hs

theorem of_step (hP : Preserved P) (hs : P s) (h : step s = .next t) : P t := by
  rcases step_cases s with ⟨-, he⟩ | ⟨w, f, raw, p, -, he⟩ | ⟨b, rest, p, -, he⟩
  · obtain rfl := Host.Outcome.next.inj (he.symm.trans h); exact hs
  · exact hP.of_exec (hP.pending s _ hs) (he.symm.trans h)
  · exact hP.of_exec (hP.pending s _ hs) (he.symm.trans h)

theorem of_run (hP : Preserved P) {n : Nat} (hs : P s) (h : core.run n s = .next t) : P t := by
  induction n generalizing s with
  | zero => obtain rfl := Host.Outcome.next.inj h; exact hs
  | succ n ih =>
    obtain ⟨u, hu, hrun⟩ := run_succ_next h
    exact ih (hP.of_step hs hu) hrun

end Preserved

/-! ### What one FEED can do -/

/-- The receiver and the event after one FEED, by what they mean for the frame being received: the arms of R142 to R149
with the conditions that the invariants need. -/
inductive FeedOutcome (cfg : Config) (r : Rx) : Rx × Event → Prop where
  /-- Start, FlagRcv and AddrRcv move on or stay; a latched address is not FLAG (R142 to R144). -/
  | header (st : RxState) (a c : Byte) (hs : r.state ≠ .bccRcv) (ha : a ≠ Wire.flag ∨ a = r.addr) :
      FeedOutcome cfg r ({ r with state := st, addr := a, ctrl := c }, .cont)
  /-- A matching BCC1 opens the body (R145). -/
  | opened : FeedOutcome cfg r ({ r with state := .bccRcv, esc := false, buf := [] }, .cont)
  /-- An ESC in the region is pending (R148). -/
  | escaped (hs : r.state = .bccRcv) (hc : classOf r.ctrl = .info) :
      FeedOutcome cfg r ({ r with esc := true }, .cont)
  /-- A destuffed byte is held, with room for it (R43, R148, R149). -/
  | held (v : Byte) (hs : r.state = .bccRcv) (hc : classOf r.ctrl = .info) (hroom : bufFull cfg r = false) :
      FeedOutcome cfg r ({ r with esc := false, buf := r.buf ++ [v] }, .cont)
  /-- The closing flag of a supervisory frame (R146). -/
  | deliveredSupervisory (hc : classOf r.ctrl = .supervisory) : FeedOutcome cfg r (deliver r [])
  /-- The closing flag of an information frame (R148). -/
  | deliveredInfo (p : List Byte) (b2 : Byte) (hc : classOf r.ctrl = .info) (hb : r.buf = p ++ [b2]) :
      FeedOutcome cfg r (deliver r p)
  /-- An error, from any arm that has one. -/
  | failed (why : Reason) : FeedOutcome cfg r (raiseError r why)

theorem closeInfo_outcome (cfg : Config) {r : Rx} (hc : classOf r.ctrl = .info) :
    FeedOutcome cfg r (closeInfo r) := by
  rcases closeInfo_cases r with ⟨-, h⟩ | ⟨p, b2, hb, -, h⟩ | ⟨p, b2, -, -, h⟩ <;> rw [h]
  · exact .failed _
  · exact .deliveredInfo p b2 hc hb
  · exact .failed _

theorem append_clearEsc_outcome {cfg : Config} {r : Rx} (v : Byte) (hs : r.state = .bccRcv)
    (hc : classOf r.ctrl = .info) : FeedOutcome cfg r (append cfg (clearEsc r) v) := by
  rcases append_cases cfg (clearEsc r) v with ⟨-, h⟩ | ⟨hroom, h⟩ <;> rw [h]
  · exact .failed _
  · exact .held v hs hc hroom

theorem clearEsc_eq_self {r : Rx} (he : r.esc = false) : clearEsc r = r := by
  simp [clearEsc, ← he]

theorem rxFeed_outcome (cfg : Config) (r : Rx) (b : Byte) : FeedOutcome cfg r (rxFeed cfg r b) := by
  rcases rxFeed_cases cfg r b with ⟨hs, -, h⟩ | ⟨hs, -, h⟩ | ⟨hs, -, h⟩ | ⟨hs, hb, h⟩ | ⟨hs, h⟩ | ⟨-, -, h⟩ |
    ⟨-, -, h⟩ | ⟨-, hc, -, h⟩ | ⟨-, -, -, h⟩ | ⟨-, -, h⟩ | ⟨-, hc, -, -, h⟩ | ⟨hs, hc, -, -, h⟩ |
    ⟨hs, hc, he, -, -, h⟩ | ⟨hs, hc, -, -, h⟩ | ⟨hs, hc, -, -, h⟩ | ⟨-, -, -, -, -, h⟩ <;> rw [h]
  · exact .header .flagRcv r.addr r.ctrl (by simp [hs]) (.inr rfl)
  · exact .header r.state r.addr r.ctrl (by simp [hs]) (.inr rfl)
  · exact .header r.state r.addr r.ctrl (by simp [hs]) (.inr rfl)
  · exact .header .addrRcv b r.ctrl (by simp [hs]) (.inl hb)
  · exact .header .ctrlRcv r.addr b (by simp [hs]) (.inr rfl)
  · exact .opened
  · exact .failed _
  · exact .deliveredSupervisory hc
  · exact .failed _
  · exact .failed _
  · exact closeInfo_outcome cfg hc
  · exact .escaped hs hc
  · have hout := append_clearEsc_outcome (cfg := cfg) b hs hc
    rwa [clearEsc_eq_self he] at hout
  · exact append_clearEsc_outcome Wire.flag hs hc
  · exact append_clearEsc_outcome Wire.esc hs hc
  · exact .failed _

/-! ### The invariants of R24 -/

section Invariants
variable {cfg : Config} {r : Rx}

/-- A receiver with no escape pending and an empty buffer satisfies R24 in every parse state. -/
theorem Rx.Inv.of_clear (he : r.esc = false) (hb : r.buf = []) : Rx.Inv cfg r where
  esc_in_region h := absurd (he.symm.trans h) Bool.false_ne_true
  buf_in_region h := absurd hb h
  buf_bounded m _ := by simp [hb]
  idle_clear _ := ⟨he, hb⟩

/-- In the open region of an information frame R24 is the bound on the buffer. -/
theorem Rx.Inv.of_region (hs : r.state = .bccRcv) (hc : classOf r.ctrl = .info)
    (hb : ∀ m, cfg.maxPayload = some m → r.buf.length ≤ m + 1) : Rx.Inv cfg r where
  esc_in_region _ := ⟨hs, hc⟩
  buf_in_region _ := ⟨hs, hc⟩
  buf_bounded := hb
  idle_clear h := by simp [hs] at h

/-- Outside BccRcv no escape is pending and the buffer is empty. -/
theorem Rx.Inv.clear_of_state_ne (hi : Rx.Inv cfg r) (hs : r.state ≠ .bccRcv) : r.esc = false ∧ r.buf = [] :=
  ⟨Bool.eq_false_iff.mpr fun h => hs (hi.esc_in_region h).1, by_contra fun h => hs (hi.buf_in_region h).1⟩

theorem Rx.Inv.toStart (cfg : Config) (r : Rx) : Rx.Inv cfg (toStart r) := .of_clear rfl rfl

theorem Rx.Inv.reset (cfg : Config) : Rx.Inv cfg Rx.reset := .of_clear rfl rfl

theorem reset_addr_ne_flag : Rx.reset.addr ≠ Wire.flag := by decide

theorem FeedOutcome.inv {out : Rx × Event} (h : FeedOutcome cfg r out) (hi : Rx.Inv cfg r) :
    Rx.Inv cfg out.1 := by
  cases h with
  | header st a c hs _ => obtain ⟨he, hb⟩ := hi.clear_of_state_ne hs; exact .of_clear he hb
  | opened => exact .of_clear rfl rfl
  | escaped hs hc => exact .of_region hs hc hi.buf_bounded
  | held v hs hc hroom =>
    refine .of_region hs hc fun m hm => ?_
    have hle : r.buf.length ≤ m + 1 := hi.buf_bounded m hm
    have hne : r.buf.length ≠ m + 1 := fun heq =>
      absurd ((bufFull_iff cfg r).mpr ⟨m, hm, heq⟩) (by simp [hroom])
    show (r.buf ++ [v]).length ≤ m + 1
    rw [List.length_append, List.length_singleton]
    omega
  | deliveredSupervisory _ => exact .toStart cfg r
  | deliveredInfo p b2 _ _ => exact .toStart cfg r
  | failed why => exact .toStart cfg r

theorem FeedOutcome.addr_ne_flag {out : Rx × Event} (h : FeedOutcome cfg r out) (ha : r.addr ≠ Wire.flag) :
    out.1.addr ≠ Wire.flag := by
  cases h with
  | header st a c _ ha' => rcases ha' with ha' | rfl; exacts [ha', ha]
  | _ => exact ha

/-- The bound on the buffer is one more than the bound on the payload, for the BCC2 behind it (R24, R78). -/
theorem Rx.Inv.payload_fits (hi : Rx.Inv cfg r) {p : List Byte} {b2 : Byte} (hb : r.buf = p ++ [b2]) :
    payloadTooLong cfg p.length = false := by
  rw [← Bool.not_eq_true, payloadTooLong_iff]
  rintro ⟨m, hm, hlt⟩
  have hle := hi.buf_bounded m hm
  rw [hb, List.length_append, List.length_singleton] at hle
  omega

theorem payloadTooLong_zero (cfg : Config) : payloadTooLong cfg 0 = false := by
  rw [← Bool.not_eq_true, payloadTooLong_iff]; rintro ⟨m, -, hlt⟩; omega

theorem FeedOutcome.delivers_valid {out : Rx × Event} (h : FeedOutcome cfg r out) (hi : Rx.Inv cfg r)
    (ha : r.addr ≠ Wire.flag) {f : Frame} (hf : out.2 = .frameReady f) : Valid cfg f := by
  cases h with
  | deliveredSupervisory hc =>
    obtain rfl := Event.frameReady.inj hf
    exact ⟨ha, by simp [hc], fun _ => rfl, payloadTooLong_zero cfg⟩
  | deliveredInfo p b2 hc hb =>
    obtain rfl := Event.frameReady.inj hf
    exact ⟨ha, by simp [hc], by simp [hc], hi.payload_fits hb⟩
  | _ => cases hf

end Invariants

/-- The operations of the model keep R24. -/
theorem inv_preserved : Preserved State.Inv where
  pending _ _ hs := hs
  reset s _ := .reset s.cfg
  takeByte s b hs := (rxFeed_outcome s.cfg s.rx b).inv hs
  give _ _ _ hs := hs

/-- The operations of the model keep soundness. -/
theorem sound_preserved : Preserved State.Sound where
  pending _ _ hs := ⟨hs.inv, hs.addr_ne, hs.delivered⟩
  reset s hs := ⟨.reset s.cfg, reset_addr_ne_flag, hs.delivered⟩
  takeByte s b hs := by
    have hout := rxFeed_outcome s.cfg s.rx b
    refine ⟨hout.inv hs.inv, hout.addr_ne_flag hs.addr_ne, fun f hf => ?_⟩
    rw [takeByte_results, List.mem_append, List.mem_singleton] at hf
    rcases hf with hold | hnew
    · exact hs.delivered f hold
    · exact hout.delivers_valid hs.inv hs.addr_ne (Result.event.inj hnew).symm
  give s x hx hs := by
    refine ⟨hs.inv, hs.addr_ne, fun f hf => ?_⟩
    rw [State.give_results, List.mem_append, List.mem_singleton] at hf
    rcases hf with hold | rfl
    · exact hs.delivered f hold
    · cases hx

theorem powerOn_sound (m : Option Nat) (p : List Issue) : State.Sound { State.powerOn m with pending := p } :=
  ⟨.reset _, reset_addr_ne_flag, fun _ h => nomatch h⟩

end Sys2Proof.Machine
end

section
/-! PROOFS. Two runs beside each other: receivers that differ where no rule reads (R25), and states that differ in
what the other units gave (R21). -/

namespace Sys2Proof.Machine

/-! ### The latches that no rule reads -/

/-- From CtrlRcv on every latch is read, so receivers that agree are equal. -/
theorem Rx.Agree.eq_of_latched {r r' : Rx} (h : Rx.Agree r r') (hs : r.state = .ctrlRcv ∨ r.state = .bccRcv) :
    r = r' := by
  have haddr : r.addr = r'.addr := by
    rcases hs with hs | hs <;> exact h.addr (by simp [hs]) (by simp [hs])
  have hctrl := h.ctrl hs
  obtain ⟨hstate, hesc, hbuf, -, -⟩ := h
  cases r; cases r'
  simp only [Rx.mk.injEq]
  exact ⟨hstate, haddr, hctrl, hesc, hbuf⟩

theorem Rx.Agree.refl (r : Rx) : Rx.Agree r r := ⟨rfl, rfl, rfl, fun _ _ => rfl, fun _ => rfl⟩

/-- One FEED reads no latch in which agreeing receivers differ: a frame's address and control byte are latched before a
rule reads them (R142 to R144). -/
theorem rxFeed_agree (cfg : Config) {r r' : Rx} (b : Byte) (h : Rx.Agree r r') :
    (rxFeed cfg r b).2 = (rxFeed cfg r' b).2 ∧ Rx.Agree (rxFeed cfg r b).1 (rxFeed cfg r' b).1 := by
  have hstate := h.state
  cases hs : r.state with
  | start =>
    rw [rxFeed_start b hs, rxFeed_start b (hstate.symm.trans hs)]
    by_cases hb : b = Wire.flag
    · rw [feedStart, feedStart, if_pos hb, if_pos hb]
      exact ⟨rfl, rfl, h.esc, h.buf, fun _ hne => absurd rfl hne, fun hl => by simp at hl⟩
    · rw [feedStart, feedStart, if_neg hb, if_neg hb]; exact ⟨rfl, h⟩
  | flagRcv =>
    rw [rxFeed_flagRcv b hs, rxFeed_flagRcv b (hstate.symm.trans hs)]
    by_cases hb : b = Wire.flag
    · rw [feedFlagRcv, feedFlagRcv, if_pos hb, if_pos hb]; exact ⟨rfl, h⟩
    · rw [feedFlagRcv, feedFlagRcv, if_neg hb, if_neg hb]
      exact ⟨rfl, rfl, h.esc, h.buf, fun _ _ => rfl, fun hl => by simp at hl⟩
  | addrRcv =>
    rw [rxFeed_addrRcv b hs, rxFeed_addrRcv b (hstate.symm.trans hs)]
    exact ⟨rfl, rfl, h.esc, h.buf, fun _ _ => h.addr (by simp [hs]) (by simp [hs]), fun _ => rfl⟩
  | ctrlRcv => obtain rfl := h.eq_of_latched (.inl hs); exact ⟨rfl, .refl _⟩
  | bccRcv => obtain rfl := h.eq_of_latched (.inr hs); exact ⟨rfl, .refl _⟩

theorem takeBytes_agree {s s' : State} (bs : List Byte) (hcfg : s.cfg = s'.cfg) (hres : s.results = s'.results)
    (h : Rx.Agree s.rx s'.rx) :
    (takeBytes s bs).results = (takeBytes s' bs).results ∧ Rx.Agree (takeBytes s bs).rx (takeBytes s' bs).rx := by
  induction bs generalizing s s' with
  | nil => exact ⟨hres, h⟩
  | cons b bs ih =>
    obtain ⟨hevent, hrx⟩ := rxFeed_agree s.cfg b h
    refine ih (s := takeByte s b) (s' := takeByte s' b) hcfg ?_ ?_
    · rw [takeByte_results, takeByte_results, hres, hevent, hcfg]
    · rw [takeByte_rx, takeByte_rx, ← hcfg]; exact hrx

/-- The status port reads neither the address nor the control byte (R27). -/
theorem Rx.Agree.status {s s' : State} (h : Rx.Agree s.rx s'.rx) :
    s.rxStatus = s'.rxStatus ∧ s.rxLen = s'.rxLen :=
  ⟨by rw [State.rxStatus, State.rxStatus, h.state, h.esc], by rw [State.rxLen, State.rxLen, h.buf]⟩

/-! ### What the other units do not touch -/

/-- Two states that the RX unit cannot tell apart, with the same events so far. -/
structure State.SameRx (s s' : State) : Prop where
  rx     : s.rx = s'.rx
  cfg    : s.cfg = s'.cfg
  events : eventsOf s.results = eventsOf s'.results

namespace State.SameRx
variable {s s' : State}

theorem refl (s : State) : s.SameRx s := ⟨rfl, rfl, rfl⟩

theorem of_takeByte (h : s.SameRx s') (b : Byte) : (takeByte s b).SameRx (takeByte s' b) where
  rx := by rw [takeByte_rx, takeByte_rx, h.rx, h.cfg]
  cfg := h.cfg
  events := by simp only [takeByte_results, eventsOf_append, h.events, h.rx, h.cfg]

theorem of_takeBytes (h : s.SameRx s') (bs : List Byte) : (takeBytes s bs).SameRx (takeBytes s' bs) := by
  induction bs generalizing s s' with
  | nil => exact h
  | cons b bs ih => exact ih (h.of_takeByte b)

theorem give_left (h : s.SameRx s') {x : Result} (hx : eventsOf [x] = []) : (s.give x).SameRx s' :=
  ⟨h.rx, h.cfg, by rw [give_results, eventsOf_append, hx, List.append_nil, h.events]⟩

/-- A command of the RX unit keeps two states alike. -/
theorem of_exec (h : s.SameRx s') {i : Instr} (hu : unitOf i = .rx) :
    ∃ t t', exec i s = .next t ∧ exec i s' = .next t' ∧ t.SameRx t' := by
  by_cases hr : i = .reset
  · subst hr; exact ⟨_, _, exec_reset s, exec_reset s', rfl, h.cfg, h.events⟩
  · exact ⟨_, _, exec_wire s hr hu, exec_wire s' hr hu, h.of_takeBytes _⟩

/-- A run and the same run without the other units' commands keep two states alike. -/
theorem of_execAll_filter (h : s.SameRx s') (cmds : List Instr) :
    ∃ t t', execAll cmds s = .next t ∧ execAll (cmds.filter (fun i => unitOf i = .rx)) s' = .next t' ∧
      t.SameRx t' := by
  induction cmds generalizing s s' with
  | nil => exact ⟨s, s', rfl, rfl, h⟩
  | cons i is ih =>
    by_cases hu : unitOf i = .rx
    · obtain ⟨u, u', he, he', hsame⟩ := h.of_exec hu
      rw [List.filter_cons_of_pos (by simpa using hu), execAll_cons_next _ he, execAll_cons_next _ he']
      exact ih hsame
    · obtain ⟨x, hx, he⟩ := exec_of_unit_ne_rx s hu
      rw [List.filter_cons_of_neg (by simpa using hu), execAll_cons_next _ (he s.rx)]
      exact ih (h.give_left hx)

end State.SameRx

end Sys2Proof.Machine
end

section
/-! PROOFS. The obligations of 10_state.md. -/

namespace Sys2Proof.Proofs
open Sys2Proof.Machine

/-- Settles O41: each FEED keeps R24, and nothing else but RESET writes the receiver. -/
theorem stepKeepsReceiverInvariants : Obligations.StepKeepsReceiverInvariants := by
  unfold Obligations.StepKeepsReceiverInvariants
  exact fun _ _ hs h => inv_preserved.of_step hs h

/-- Settles O42: a frame is delivered only from a receiver whose header and buffer make it valid. -/
theorem stepKeepsDeliveredFramesValid : Obligations.StepKeepsDeliveredFramesValid := by
  unfold Obligations.StepKeepsDeliveredFramesValid
  exact fun _ _ hs h => sound_preserved.of_step hs h

/-- Settles O43, from the reset values. -/
theorem powerOnIsSound : Obligations.PowerOnIsSound := by
  unfold Obligations.PowerOnIsSound
  exact powerOn_sound

/-- Settles O44, by induction on the number of steps from power-on. -/
theorem everyReachableReceiverIsSound : Obligations.EveryReachableReceiverIsSound := by
  unfold Obligations.EveryReachableReceiverIsSound
  exact fun m p _ _ h => sound_preserved.of_run (powerOn_sound m p) h

/-- Settles O52: the two runs give the same events and stay in agreement, byte by byte. -/
theorem unreadLatchesAreUnobservable : Obligations.UnreadLatchesAreUnobservable := by
  unfold Obligations.UnreadLatchesAreUnobservable
  intro s s' bs hcfg hres h
  obtain ⟨hresults, hagree⟩ := takeBytes_agree bs hcfg hres h
  exact ⟨_, _, execAll_feeds bs s, execAll_feeds bs s', hresults, hagree, hagree.status⟩

/-- Settles O53: ENCODE and DECODE only add a result that is no event. -/
theorem unitsShareNoState : Obligations.UnitsShareNoState := by
  unfold Obligations.UnitsShareNoState
  constructor
  · intro cmds s
    obtain ⟨t, t', he, he', hsame⟩ := (State.SameRx.refl s).of_execAll_filter cmds
    exact ⟨t, t', he, he', hsame.rx, hsame.events⟩
  · intro i s r hu
    obtain ⟨x, -, he⟩ := exec_of_unit_ne_rx s hu
    exact ⟨x, he s.rx, he r⟩

/-- Settles O9: the oldest issued item is what `fetch` answers. -/
theorem stepRunsIssuedCommand : Obligations.StepRunsIssuedCommand := by
  unfold Obligations.StepRunsIssuedCommand
  intro s w f raw p h
  rw [step, fetch_command h]

/-- Settles O15: power-on and RESET both set `Rx.reset`. -/
theorem resetValues : Obligations.ResetValues := by
  unfold Obligations.ResetValues
  exact ⟨fun _ => ⟨rfl, rfl, rfl, rfl, rfl⟩, rfl, fun s _ => exec_reset s⟩

/-- Settles O54, field by field: the status port is zeros, the pending escape and the parse-state code side by side. -/
theorem statusPortFields : Obligations.StatusPortFields := by
  unfold Obligations.StatusPortFields
  intro s
  refine ⟨?_, ?_, ?_, rfl⟩
  · rw [State.rxStatus, BitVec.extractLsb'_append_eq_of_add_le (by decide), BitVec.extractLsb'_eq_self]
    cases s.rx.state <;> rfl
  · rw [State.rxStatus, BitVec.getLsbD_append, BitVec.getLsbD_append]; simp
  · rw [State.rxStatus]; cases s.rx.esc <;> cases s.rx.state <;> rfl

end Sys2Proof.Proofs
end

section
/-! PROOFS. The obligation of 20_memory.md. -/

namespace Sys2Proof.Proofs
open Sys2Proof.Machine

/-- Settles O24: a buffer is full exactly when it holds its MAX_PAYLOAD + 1 bytes, and `append` has one outcome for a
full buffer and one for a buffer with room. -/
theorem appendWritesOrOverflows : Obligations.AppendWritesOrOverflows := by
  unfold Obligations.AppendWritesOrOverflows
  intro cfg r v
  constructor
  · intro m hm hlen
    exact append_full v ((bufFull_iff cfg r).mpr ⟨m, hm, hlen⟩)
  · intro hroom
    refine append_room v (Bool.eq_false_iff.mpr fun hfull => ?_)
    obtain ⟨m, hm, hlen⟩ := (bufFull_iff cfg r).mp hfull
    exact hroom m hm hlen

end Sys2Proof.Proofs
end

section
/-! PROOFS. What 30_encoding.md's statements share about words: the command word's two fields, the control-byte table
and the symbols, each read and written. -/

namespace Sys2Proof

/-! ### Command words (R83) -/

@[simp] theorem commandWord_op (op : BitVec 2) (data : Byte) : (commandWord op data).extractLsb' 8 2 = op := by
  rw [commandWord, BitVec.extractLsb'_append_eq_of_le (Nat.le_refl 8)]; exact BitVec.extractLsb'_eq_self

@[simp] theorem commandWord_data (op : BitVec 2) (data : Byte) : (commandWord op data).extractLsb' 0 8 = data := by
  rw [commandWord, BitVec.extractLsb'_append_eq_of_add_le (Nat.le_refl 8)]; exact BitVec.extractLsb'_eq_self

/-- A command word is its two fields. -/
theorem commandWord_fields (w : CommandWord) : commandWord (w.extractLsb' 8 2) (w.extractLsb' 0 8) = w := by
  rw [commandWord, BitVec.extractLsb'_append_extractLsb'_eq_extractLsb' (Nat.zero_add 8).symm]
  exact BitVec.extractLsb'_eq_self

section Commands
variable {w : CommandWord} {f : Frame} {raw : List Byte}

theorem decodeCommand_op00 (h : w.extractLsb' 8 2 = 0b00#2) : decodeCommand w f raw = .reset := by
  simp [decodeCommand, h]

theorem decodeCommand_op01 (h : w.extractLsb' 8 2 = 0b01#2) :
    decodeCommand w f raw = .feed (w.extractLsb' 0 8) := by
  simp [decodeCommand, h]

theorem decodeCommand_op10 (h : w.extractLsb' 8 2 = 0b10#2) : decodeCommand w f raw = .encode f := by
  simp [decodeCommand, h]

theorem decodeCommand_op11 (h : w.extractLsb' 8 2 = 0b11#2) : decodeCommand w f raw = .decode raw := by
  simp [decodeCommand, h]

end Commands

theorem op_cases (op : BitVec 2) : op = 0b00#2 ∨ op = 0b01#2 ∨ op = 0b10#2 ∨ op = 0b11#2 := by
  revert op; decide

/-! ### Control bytes (R70) -/

theorem decodeControl_rr (nr : BitVec 1) : decodeControl (nr ++ 0b0000101#7) = .ok (.rr nr) := by
  revert nr; decide

theorem decodeControl_rej (nr : BitVec 1) : decodeControl (nr ++ 0b0000001#7) = .ok (.rej nr) := by
  revert nr; decide

theorem decodeControl_info (ns : BitVec 1) : decodeControl (0b0#1 ++ ns ++ 0b000000#6) = .ok (.info ns) := by
  revert ns; decide

theorem decodeControl_of_assigned {c : Byte} (h : Machine.classOf c ≠ .unassigned) :
    ∃ i, decodeControl c = .ok i := by
  have hok : ∀ c : Byte, Machine.classOf c ≠ .unassigned → (decodeControl c).toOption.isSome = true := by decide
  cases hd : decodeControl c with
  | ok i => exact ⟨i, rfl⟩
  | error why => simpa [hd, Except.toOption] using hok c h

theorem decodeControl_of_unassigned {c : Byte} (h : Machine.classOf c = .unassigned) :
    decodeControl c = .error (.unassignedControl c) := by
  revert c; decide

/-- The row of an assigned byte is well-formed and writes that byte. -/
theorem decodeControl_ok_inv {c : Byte} {i : Instr} (h : decodeControl c = .ok i) :
    i.wellFormed = true ∧ encode i = .control c := by
  have hrow : ∀ c : Byte, ∀ j ∈ (decodeControl c).toOption, j.wellFormed = true ∧ encode j = .control c := by
    decide
  exact hrow c i (by rw [h]; rfl)

/-! ### Symbols (R76) -/

section Symbols
variable (rest : List Byte)

theorem decodeSymbol_lit {b : Byte} (hf : b ≠ Wire.flag) (he : b ≠ Wire.esc) :
    decodeSymbol (b :: rest) = .ok (.lit b, rest) := by
  simp [decodeSymbol, hf, he]

theorem decodeSymbol_escFlag : decodeSymbol (Wire.esc :: Wire.escFlagSucc :: rest) = .ok (.escFlag, rest) := rfl

theorem decodeSymbol_escEsc : decodeSymbol (Wire.esc :: Wire.escEscSucc :: rest) = .ok (.escEsc, rest) := rfl

theorem decodeSymbol_endSym : decodeSymbol (Wire.flag :: rest) = .ok (.endSym, rest) := by
  simp [decodeSymbol]

theorem decodeSymbol_escBad {x : Byte} (hf : x ≠ Wire.escFlagSucc) (he : x ≠ Wire.escEscSucc) :
    decodeSymbol (Wire.esc :: x :: rest) = .ok (.escBad x, rest) := by
  simp [decodeSymbol, hf, he]

end Symbols

/-- The row that the symbol reader answers is well-formed, and the encoder writes it as a symbol. -/
theorem decodeSymbol_ok_inv {bs rest : List Byte} {i : Instr} (h : decodeSymbol bs = .ok (i, rest)) :
    i.wellFormed = true ∧ encode i = .symbol (wireBytes i) := by
  fun_cases decodeSymbol bs
  case case1 | case2 => cases h
  case case3 tail => rw [decodeSymbol_escFlag] at h; cases h; exact ⟨rfl, rfl⟩
  case case4 tail _ => rw [decodeSymbol_escEsc] at h; cases h; exact ⟨rfl, rfl⟩
  case case5 x tail hf he =>
    rw [decodeSymbol_escBad tail hf he] at h; cases h; exact ⟨by simp [Instr.wellFormed, hf, he], rfl⟩
  case case6 tail _ => rw [decodeSymbol_endSym] at h; cases h; exact ⟨rfl, rfl⟩
  case case7 b tail he hf =>
    rw [decodeSymbol_lit tail hf he] at h; cases h; exact ⟨by simp [Instr.wellFormed, hf, he], rfl⟩

/-- Words of a symbol decode when one symbol is read and no byte is left over. -/
theorem decode_symbol_ok_iff {bs : List Byte} {i : Instr} :
    decode (.symbol bs) = .ok i ↔ decodeSymbol bs = .ok (i, []) := by
  rw [decode]
  rcases decodeSymbol bs with e | ⟨j, _ | ⟨b, rest⟩⟩ <;> simp

end Sys2Proof
end

section
/-! PROOFS. What 30_encoding.md's statements share about steps: the row at the head of a stream, the rows as the FEEDs
of their bytes, and the symbols in the open stuffed region. -/

namespace Sys2Proof.Machine

/-! ### The row at the head of a stream -/

section StreamRow
variable {r : Rx} {b : Byte} {bs rest : List Byte} {i : Instr}

theorem streamRow_control (hs : r.state = .addrRcv) (h : decodeControl b = .ok i) :
    streamRow r b bs = (i, bs) := by
  simp [streamRow, hs, h]

theorem streamRow_unassigned (hs : r.state = .addrRcv) (h : classOf b = .unassigned) :
    streamRow r b bs = (.feed b, bs) := by
  simp [streamRow, hs, decodeControl_of_unassigned h]

theorem streamRow_symbol (hr : inRegion r = true) (h : decodeSymbol (b :: bs) = .ok (i, rest)) :
    streamRow r b bs = (i, rest) := by
  have hs : r.state = .bccRcv := ((inRegion_iff r).mp hr).1
  simp [streamRow, hs, hr, h]

theorem streamRow_truncatedEscape (hr : inRegion r = true) : streamRow r Wire.esc [] = (.feed Wire.esc, []) := by
  have hs : r.state = .bccRcv := ((inRegion_iff r).mp hr).1
  simp [streamRow, hs, hr, decodeSymbol]

theorem streamRow_elsewhere (hs : r.state ≠ .addrRcv) (hr : inRegion r = false) :
    streamRow r b bs = (.feed b, bs) := by
  simp [streamRow, hs, hr]

end StreamRow

theorem State.InRegion.inRegion {s : State} (hr : s.InRegion) (he : s.rx.esc = false) :
    Machine.inRegion s.rx = true :=
  (inRegion_iff s.rx).mpr ⟨hr.1, hr.2, he⟩

theorem step_feedStar {s : State} {b : Byte} {bs rest : List Byte} {p : List Issue} {i : Instr}
    (h : s.pending = .feedStar b bs :: p) (hrow : streamRow s.rx b bs = (i, rest)) :
    step s = exec i { s with pending := resumeStream rest p } := by
  rw [step, fetch_feedStar h, hrow]

/-! ### The word the host places -/

theorem decodeTableWord_eq_some {nbits w : Nat} {i : Instr} (h : decodeTableWord nbits w = some i) :
    ∃ e, tableWord nbits w = some e ∧ decode e = .ok i := by
  rw [decodeTableWord] at h
  cases ht : tableWord nbits w with
  | none => simp [ht] at h
  | some e =>
    cases hd : decode e with
    | error why => simp [ht, hd, Except.toOption] at h
    | ok j => simp [ht, hd, Except.toOption] at h; subst h; exact ⟨e, rfl, hd⟩

theorem tableWord_command {nbits w : Nat} {e : Encoded} (hn : 8 < nbits) (hw : w < 1024)
    (h : tableWord nbits w = some e) : e = .command (BitVec.ofNat 10 w) Frame.zero [] := by
  by_cases hn' : nbits ≤ 16
  · simpa [tableWord, hn.not_ge, hn', hw, eq_comm] using h
  · simp [tableWord, hn.not_ge, hn'] at h

theorem State.withFetchWord_eq {nbits w : Nat} {e : Encoded} (s : State) (h : tableWord nbits w = some e) :
    s.withFetchWord nbits w = issueNext s e := by
  rw [State.withFetchWord, h]

/-- The step after the host places the words of a row is `exec` of the row, with the receiver where it is read. -/
theorem step_issueNext (s : State) {e : Encoded} {i : Instr} (h : decode e = .ok i) :
    ∃ r : Rx, step (issueNext s e) = exec i { s with rx := r } ∧ r.addr = s.rx.addr ∧ r.buf = s.rx.buf ∧
      (∀ w f raw, e = .command w f raw → r = s.rx) := by
  cases e with
  | command w f raw =>
    obtain rfl : decodeCommand w f raw = i := Except.ok.inj h
    exact ⟨s.rx, Proofs.stepRunsIssuedCommand (issueNext s _) w f raw s.pending rfl, rfl, rfl, fun _ _ _ _ => rfl⟩
  | control c =>
    exact ⟨_, step_feedStar (s := issueNext s (.control c)) rfl (streamRow_control rfl h), rfl, rfl,
      fun _ _ _ he => nomatch he⟩
  | symbol bs =>
    have hsym := decode_symbol_ok_iff.mp h
    cases bs with
    | nil => cases hsym
    | cons b bs =>
      exact ⟨_, step_feedStar (s := issueNext s (.symbol (b :: bs))) rfl (streamRow_symbol rfl hsym), rfl, rfl,
        fun _ _ _ he => nomatch he⟩

/-! ### A stream, row by row -/

theorem run_succ_of_step {s u : State} (n : Nat) (h : step s = .next u) : core.run (n + 1) s = core.run n u := by
  have hstep : core.step s = .next u := h
  simp only [Host.Core.run, hstep]

theorem takeBytes_with_pending (s : State) (p : List Issue) (bs : List Byte) :
    takeBytes { s with pending := p } bs = { takeBytes s bs with pending := p } := by
  simp only [takeBytes_eq_rxRun]

theorem wireBytes_ne_nil {i : Instr} (hr : i ≠ .reset) (hu : unitOf i = .rx) : wireBytes i ≠ [] := by
  cases i with
  | reset => exact absurd rfl hr
  | feed b => simp [wireBytes_feed]
  | encode f => cases hu
  | decode raw => cases hu
  | _ => exact List.cons_ne_nil _ _

/-- A step on a stream takes some first bytes off it, at least one, and feeds them. -/
theorem step_feeds_first_bytes {s : State} {b : Byte} {bs : List Byte} {p : List Issue}
    (h : s.pending = .feedStar b bs :: p) :
    ∃ taken rest, taken ≠ [] ∧ b :: bs = taken ++ rest ∧
      step s = .next (takeBytes { s with pending := resumeStream rest p } taken) := by
  obtain ⟨hcut, hu, hr⟩ := streamRow_consumes s.rx b bs
  exact ⟨_, _, wireBytes_ne_nil hr hu, hcut, (step_feedStar h rfl).trans (exec_wire _ hr hu)⟩

/-- The row-by-row run of a stream takes its bytes, in at most one step a byte. -/
theorem run_feedStar {s : State} {b : Byte} {bs : List Byte} {p : List Issue}
    (h : s.pending = .feedStar b bs :: p) :
    ∃ n, 1 ≤ n ∧ n ≤ (b :: bs).length ∧
      core.run n s = .next (takeBytes { s with pending := p } (b :: bs)) := by
  induction hlen : (b :: bs).length using Nat.strong_induction_on generalizing s b bs with
  | _ len ih =>
    obtain ⟨taken, rest, hne, hcut, hstep⟩ := step_feeds_first_bytes h
    have htaken : 0 < taken.length := List.length_pos_iff.mpr hne
    have hsum : len = taken.length + rest.length := by rw [← hlen, hcut, List.length_append]
    cases rest with
    | nil =>
      refine ⟨1, le_rfl, by omega, ?_⟩
      rw [run_succ_of_step 0 hstep, hcut, List.append_nil]
      rfl
    | cons c cs =>
      obtain ⟨n, -, hn, hrun⟩ := ih (c :: cs).length (by omega)
        (s := takeBytes { s with pending := .feedStar c cs :: p } taken) (takeBytes_pending _ _) rfl
      refine ⟨n + 1, by omega, by omega, ?_⟩
      rw [run_succ_of_step n hstep, resumeStream_cons, hrun, hcut, takeBytes_append, ← takeBytes_with_pending]

/-! ### Rows as the FEEDs of their bytes -/

theorem exec_eq_feeds {i : Instr} (s : State) (hr : i ≠ .reset) (hu : unitOf i = .rx) :
    exec i s = execAll (feeds (wireBytes i)) s := by
  rw [exec_wire s hr hu, execAll_feeds]

theorem wireBytes_rr (nr : BitVec 1) : wireBytes (.rr nr) = [0x05#8 ||| (nr.setWidth 8 <<< 7)] := by
  revert nr; decide

theorem wireBytes_rej (nr : BitVec 1) : wireBytes (.rej nr) = [0x01#8 ||| (nr.setWidth 8 <<< 7)] := by
  revert nr; decide

theorem wireBytes_info (ns : BitVec 1) : wireBytes (.info ns) = [ns.setWidth 8 <<< 6] := by
  revert ns; decide

/-! ### Symbols in the open stuffed region -/

theorem clearEsc_escaped {r : Rx} (he : r.esc = false) : clearEsc { r with esc := true } = r :=
  clearEsc_eq_self he

theorem toStart_of_esc_clear {r : Rx} (he : r.esc = false) : toStart r = { r with state := .start, buf := [] } := by
  simp [toStart, ← he]

theorem toStart_of_clear {r : Rx} (he : r.esc = false) (hb : r.buf = []) :
    toStart r = { r with state := .start } := by
  rw [toStart_of_esc_clear he, ← hb]

theorem State.bufFull_of_full {s : State} (h : s.Full) : bufFull s.cfg s.rx = true := (bufFull_iff _ _).mpr h

theorem State.bufFull_of_not_full {s : State} (h : ¬ s.Full) : bufFull s.cfg s.rx = false :=
  Bool.eq_false_iff.mpr fun hfull => h ((bufFull_iff _ _).mp hfull)

section Region
variable {s : State} (hr : s.InRegion) (he : s.rx.esc = false)
include hr he

/-- A byte in the region, no escape pending, is the region's (R148). -/
theorem takeByte_region (b : Byte) : takeByte s b = s.afterFeed (feedRegion s.cfg s.rx b) := by
  rw [takeByte, rxFeed_region b hr.1 hr.2 he]

/-- An escape pair in the region: Continue, then what the successor gives (R148, R149). -/
theorem takeBytes_escapePair (x : Byte) :
    takeBytes s [Wire.esc, x] =
      (s.fed s.rx .cont).afterFeed (feedSuccessor s.cfg { s.rx with esc := true } x) := by
  have hesc : takeByte s Wire.esc = s.fed { s.rx with esc := true } .cont := takeByte_region hr he Wire.esc
  rw [takeBytes_cons, hesc, takeBytes_cons, takeBytes_nil, takeByte, State.fed_rx, State.fed_cfg,
    rxFeed_successor (r := { s.rx with esc := true }) x hr.1 hr.2 rfl]
  rfl

theorem exec_lit_region {b : Byte} (hf : b ≠ Wire.flag) (hx : b ≠ Wire.esc) :
    exec (.lit b) s = .next (s.afterFeed (append s.cfg s.rx b)) := by
  have hb : feedRegion s.cfg s.rx b = append s.cfg s.rx b := by simp [feedRegion, hf, hx]
  rw [← hb, ← takeByte_region hr he]
  rfl

theorem exec_endSym_region : exec .endSym s = .next (s.afterFeed (closeInfo s.rx)) :=
  congrArg Host.Outcome.next (takeByte_region hr he Wire.flag)

theorem exec_escFlag_region :
    exec .escFlag s = .next ((s.fed s.rx .cont).afterFeed (append s.cfg s.rx Wire.flag)) := by
  have hpair := takeBytes_escapePair hr he Wire.escFlagSucc
  rw [feedSuccessor, if_pos rfl, clearEsc_escaped he] at hpair
  exact congrArg Host.Outcome.next hpair

theorem exec_escEsc_region :
    exec .escEsc s = .next ((s.fed s.rx .cont).afterFeed (append s.cfg s.rx Wire.esc)) := by
  have hpair := takeBytes_escapePair hr he Wire.escEscSucc
  rw [feedSuccessor, if_neg escEscSucc_ne_escFlagSucc, if_pos rfl, clearEsc_escaped he] at hpair
  exact congrArg Host.Outcome.next hpair

theorem exec_escBad_region {x : Byte} (hf : x ≠ Wire.escFlagSucc) (hx : x ≠ Wire.escEscSucc) :
    exec (.escBad x) s = .next ((s.fed s.rx .cont).afterFeed (raiseError s.rx .malformed)) := by
  have hpair := takeBytes_escapePair hr he x
  rw [feedSuccessor, if_neg hf, if_neg hx] at hpair
  exact congrArg Host.Outcome.next hpair

end Region

end Sys2Proof.Machine
end

section
/-! PROOFS. The obligations of 30_encoding.md. -/

namespace Sys2Proof.Proofs
open Sys2Proof.Machine

/-- Settles O6, by cases on the instruction: a command word gives back its two fields, a control byte its row with the
sequence bit, and a symbol its first byte and, after ESC, its second. -/
theorem decodeOfEncodeIsIdentity : Obligations.DecodeOfEncodeIsIdentity := by
  unfold Obligations.DecodeOfEncodeIsIdentity
  intro i hwf
  cases i with
  | reset | encode f | decode raw | set | ua | disc | escFlag | escEsc | endSym => rfl
  | feed b => rw [encode, decode, decodeCommand_op01 (commandWord_op _ _), commandWord_data]
  | rr nr => exact decodeControl_rr nr
  | rej nr => exact decodeControl_rej nr
  | info ns => exact decodeControl_info ns
  | lit b =>
    obtain ⟨hf, he⟩ : b ≠ Wire.flag ∧ b ≠ Wire.esc := by simpa [Instr.wellFormed] using hwf
    exact decode_symbol_ok_iff.mpr (decodeSymbol_lit [] hf he)
  | escBad x =>
    obtain ⟨hf, he⟩ : x ≠ Wire.escFlagSucc ∧ x ≠ Wire.escEscSucc := by simpa [Instr.wellFormed] using hwf
    exact decode_symbol_ok_iff.mpr (decodeSymbol_escBad [] hf he)

/-- Settles O45, by strong induction on the length of the stream: each step feeds some of its first bytes. -/
theorem streamRunIsItsFeeds : Obligations.StreamRunIsItsFeeds := by
  unfold Obligations.StreamRunIsItsFeeds
  intro s b bs p h
  rw [execAll_feeds]
  exact run_feedStar h

/-- Settles O7, family by family: the decoder's answer fixes the control byte, the symbol's bytes, and of a command
word the `op` and what the command uses. -/
theorem encodeOfDecodeUpToIgnoredBits : Obligations.EncodeOfDecodeUpToIgnoredBits := by
  unfold Obligations.EncodeOfDecodeUpToIgnoredBits
  refine ⟨fun c i h => decodeControl_ok_inv h, fun bs i h => ?_, fun w f raw => ?_⟩
  · have hsym := decode_symbol_ok_iff.mp h
    obtain ⟨hwf, henc⟩ := decodeSymbol_ok_inv hsym
    obtain ⟨hbytes, -, -⟩ := decodeSymbol_consumes hsym
    rw [hbytes, List.append_nil]
    exact ⟨hwf, henc⟩
  · rcases op_cases (w.extractLsb' 8 2) with hop | hop | hop | hop
    · rw [decodeCommand_op00 hop]
      exact ⟨rfl, _, _, _, rfl, by simp [hop]⟩
    · rw [decodeCommand_op01 hop]
      have hw : commandWord 0b01#2 (w.extractLsb' 0 8) = w := by rw [← hop, commandWord_fields]
      exact ⟨rfl, _, _, _, rfl, by simp [hw, hop]⟩
    · rw [decodeCommand_op10 hop]
      exact ⟨rfl, _, _, _, rfl, by simp [hop]⟩
    · rw [decodeCommand_op11 hop]
      exact ⟨rfl, _, _, _, rfl, by simp [hop]⟩

/-- Settles O12: the placed words are those of a row that decodes, and a step reads that row where it is placed. -/
theorem fetchWordRunsItsInstruction : Obligations.FetchWordRunsItsInstruction := by
  unfold Obligations.FetchWordRunsItsInstruction
  intro s nbits w i h
  obtain ⟨e, htable, hdecode⟩ := decodeTableWord_eq_some h
  obtain ⟨r, hstep, haddr, hbuf, hcommand⟩ := step_issueNext s hdecode
  rw [s.withFetchWord_eq htable]
  exact ⟨r, hstep, haddr, hbuf, fun hn hw => hcommand _ _ _ (tableWord_command hn hw htable)⟩

/-- Settles O1, one value of `op` at a time. -/
theorem commandWordSelectsCommand : Obligations.CommandWordSelectsCommand := by
  unfold Obligations.CommandWordSelectsCommand
  refine fun w f raw => ⟨fun h => ?_, fun h => ?_, fun h => ?_, fun h => ?_⟩
  · rw [decodeCommand_op00 h]; exact ⟨rfl, rfl⟩
  · rw [decodeCommand_op01 h]; exact ⟨rfl, rfl⟩
  · rw [decodeCommand_op10 h]; exact ⟨rfl, rfl⟩
  · rw [decodeCommand_op11 h]; exact ⟨rfl, rfl⟩

/-- Settles O2: the codes one by one, and what is said of every byte by evaluating the rows on each of the 256. -/
theorem controlByteTable : Obligations.ControlByteTable := by
  unfold Obligations.ControlByteTable
  exact ⟨⟨rfl, rfl⟩, ⟨rfl, rfl⟩, ⟨rfl, rfl⟩, ⟨rfl, rfl⟩, ⟨rfl, rfl⟩, ⟨rfl, rfl⟩, ⟨rfl, rfl⟩, ⟨rfl, rfl⟩, ⟨rfl, rfl⟩,
    by decide, by decide, by decide, rfl, rfl⟩

/-- Settles O3, by which of the two lists of R72, which share no byte, the byte is in. -/
theorem classIsExactMatch : Obligations.ClassIsExactMatch := by
  unfold Obligations.ClassIsExactMatch
  intro c
  rw [classOf]
  split
  case isTrue hs => fin_cases hs <;> decide
  case isFalse hs =>
    split
    case isTrue hi => fin_cases hi <;> decide
    case isFalse hi => simp_all

/-- Settles O4: the table answers a row for an assigned byte and the named rejection for an unassigned one. -/
theorem controlRejectedIffUnassigned : Obligations.ControlRejectedIffUnassigned := by
  unfold Obligations.ControlRejectedIffUnassigned
  intro c
  by_cases hc : classOf c = .unassigned
  · have herr := decodeControl_of_unassigned hc
    simp [hc, herr]
  · obtain ⟨i, hi⟩ := decodeControl_of_assigned hc
    obtain ⟨-, henc⟩ := decodeControl_ok_inv hi
    exact ⟨by simp [hc, hi], fun _ => ⟨i, hi, henc⟩, fun _ => hc⟩

/-- Settles O5, symbol by symbol. -/
theorem symbolsAreReadFromTheirFirstByte : Obligations.SymbolsAreReadFromTheirFirstByte := by
  unfold Obligations.SymbolsAreReadFromTheirFirstByte
  intro rest b x
  exact ⟨decodeSymbol_lit rest, decodeSymbol_escFlag rest, decodeSymbol_escEsc rest, decodeSymbol_endSym rest,
    decodeSymbol_escBad rest, rfl, rfl⟩

/-- Settles O8, by running the decoder on the nine words. -/
theorem wordsWrittenFromTheSpecDecode : Obligations.WordsWrittenFromTheSpecDecode := by
  unfold Obligations.WordsWrittenFromTheSpecDecode
  decide

/-- Settles O10, by where the receiver stands: the row at the head of the stream in each place. -/
theorem stepRunsStreamRow : Obligations.StepRunsStreamRow := by
  unfold Obligations.StepRunsStreamRow
  intro s b bs p h
  refine ⟨fun i hs hi => step_feedStar h (streamRow_control hs hi),
    fun hs hc => step_feedStar h (streamRow_unassigned hs hc),
    fun i rest hr he hi => step_feedStar h (streamRow_symbol (hr.inRegion he) hi),
    fun hr he hb hbs => ?_, fun hs hr => ?_⟩
  · subst hb hbs
    exact step_feedStar h (streamRow_truncatedEscape (hr.inRegion he))
  · refine step_feedStar h (streamRow_elsewhere hs (Bool.eq_false_iff.mpr fun hin => hr ?_))
    obtain ⟨hstate, hclass, hesc⟩ := (inRegion_iff s.rx).mp hin
    exact ⟨⟨hstate, hclass⟩, hesc⟩

/-- Settles O28: a row of the RX unit takes its wire bytes, as their FEEDs do. -/
theorem rowsAreFeedsOfTheirBytes : Obligations.RowsAreFeedsOfTheirBytes := by
  unfold Obligations.RowsAreFeedsOfTheirBytes
  intro s
  have hrow : ∀ i bs, i ≠ .reset → unitOf i = .rx → wireBytes i = bs → exec i s = execAll (feeds bs) s :=
    fun i bs hr hu hw => hw ▸ exec_eq_feeds s hr hu
  exact ⟨hrow .set [_] nofun rfl rfl, hrow .ua [_] nofun rfl rfl, hrow .disc [_] nofun rfl rfl,
    fun nr => hrow (.rr nr) [_] nofun rfl (wireBytes_rr nr),
    fun nr => hrow (.rej nr) [_] nofun rfl (wireBytes_rej nr),
    fun ns => hrow (.info ns) [_] nofun rfl (wireBytes_info ns),
    fun b => hrow (.lit b) [_] nofun rfl rfl,
    hrow .escFlag [_, _] nofun rfl rfl, hrow .escEsc [_, _] nofun rfl rfl, hrow .endSym [_] nofun rfl rfl,
    fun x => hrow (.escBad x) [_, _] nofun rfl rfl⟩

/-- Settles O29: each literal symbol is one `append`, which has room or overflows. -/
theorem literalSymbolsInRegion : Obligations.LiteralSymbolsInRegion := by
  unfold Obligations.LiteralSymbolsInRegion
  intro s hr he
  constructor
  · intro hroom
    have happend := fun v => append_room v (State.bufFull_of_not_full hroom)
    refine ⟨fun b hf hx => ?_, ?_, ?_⟩
    · rw [exec_lit_region hr he hf hx, happend]; rfl
    · rw [exec_escFlag_region hr he, happend]; rfl
    · rw [exec_escEsc_region hr he, happend]; rfl
  · intro hfull
    have happend := fun v => append_full v (State.bufFull_of_full hfull)
    rw [← toStart_of_esc_clear he]
    refine ⟨fun b hf hx => ?_, ?_, ?_⟩
    · rw [exec_lit_region hr he hf hx, happend]; rfl
    · rw [exec_escFlag_region hr he, happend]; rfl
    · rw [exec_escEsc_region hr he, happend]; rfl

/-- Settles O30: END is `closeInfo`, by what the buffer holds, and ESC_BAD is an error on its second byte. -/
theorem closingSymbolsInRegion : Obligations.ClosingSymbolsInRegion := by
  unfold Obligations.ClosingSymbolsInRegion
  intro s hr he
  have hclear := toStart_of_esc_clear he
  refine ⟨fun hbuf => ?_, fun p b2 hbuf hx => ?_, fun p b2 hbuf hx => ?_, fun x hf hx => ?_⟩
  · rw [exec_endSym_region hr he, closeInfo_empty hbuf, ← toStart_of_clear he hbuf]; rfl
  · rw [exec_endSym_region hr he, closeInfo_concat hbuf, if_pos hx, ← hclear]; rfl
  · rw [exec_endSym_region hr he, closeInfo_concat hbuf, if_neg hx, ← hclear]; rfl
  · rw [exec_escBad_region hr he hf hx, ← hclear]; rfl

end Sys2Proof.Proofs
end

section
/-! PROOFS. What 40_encoder.md's statements share: the stuffed symbols and where FLAG and ESC stand in them, the layout
of ENCODE's result, and DECODE of it. -/

namespace Sys2Proof.Machine

/-! ### Stuffing (R101) -/

/-- All that the stuffing of one byte can be. -/
theorem sym_cases (b : Byte) :
    (b = Wire.flag ∧ sym b = [Wire.esc, Wire.escFlagSucc]) ∨ (b = Wire.esc ∧ sym b = [Wire.esc, Wire.escEscSucc]) ∨
    (b ≠ Wire.flag ∧ b ≠ Wire.esc ∧ sym b = [b]) := by
  by_cases hf : b = Wire.flag
  · exact .inl ⟨hf, hf ▸ sym_flag⟩
  · by_cases he : b = Wire.esc
    · exact .inr (.inl ⟨he, he ▸ sym_esc⟩)
    · exact .inr (.inr ⟨hf, he, sym_literal hf he⟩)

@[simp] theorem stuff_nil : stuff [] = [] := rfl

theorem stuff_flag_cons (s : List Byte) : stuff (Wire.flag :: s) = Wire.esc :: Wire.escFlagSucc :: stuff s := rfl

theorem stuff_esc_cons (s : List Byte) : stuff (Wire.esc :: s) = Wire.esc :: Wire.escEscSucc :: stuff s := rfl

theorem stuff_literal_cons {b : Byte} (s : List Byte) (hf : b ≠ Wire.flag) (he : b ≠ Wire.esc) :
    stuff (b :: s) = b :: stuff s := by
  rw [stuff_cons, sym_literal hf he]; rfl

theorem stuff_length (s : List Byte) :
    (stuff s).length = s.length + (s.filter (fun b => b = Wire.flag ∨ b = Wire.esc)).length := by
  induction s with
  | nil => rfl
  | cons b s ih =>
    rw [stuff_cons, List.length_append, ih]
    rcases sym_cases b with ⟨rfl, hsym⟩ | ⟨rfl, hsym⟩ | ⟨hf, he, hsym⟩
    · simp [hsym]; omega
    · simp [hsym]; omega
    · simp [hsym, hf, he]; omega

theorem flag_not_mem_stuff (s : List Byte) : Wire.flag ∉ stuff s := by
  induction s with
  | nil => simp
  | cons b s ih =>
    rw [stuff_cons, List.mem_append, not_or]
    refine ⟨?_, ih⟩
    rcases sym_cases b with ⟨-, hsym⟩ | ⟨-, hsym⟩ | ⟨hf, -, hsym⟩ <;> rw [hsym]
    · decide
    · decide
    · simpa using hf.symm

/-- After an ESC in a stuffed sequence comes one of its two legal successors. -/
theorem stuff_succ_of_esc {s : List Byte} {i : Nat} (h : (stuff s)[i]? = some Wire.esc) :
    (stuff s)[i + 1]? = some Wire.escFlagSucc ∨ (stuff s)[i + 1]? = some Wire.escEscSucc := by
  induction s generalizing i with
  | nil => simp at h
  | cons b s ih =>
    rcases sym_cases b with ⟨rfl, -⟩ | ⟨rfl, -⟩ | ⟨hf, he, -⟩
    · rw [stuff_flag_cons] at h ⊢
      match i with
      | 0 => exact .inl rfl
      | 1 => exact absurd (Option.some.inj h) (by decide)
      | i + 2 => exact ih h
    · rw [stuff_esc_cons] at h ⊢
      match i with
      | 0 => exact .inr rfl
      | 1 => exact absurd (Option.some.inj h) (by decide)
      | i + 2 => exact ih h
    · rw [stuff_literal_cons s hf he] at h ⊢
      match i with
      | 0 => exact absurd (Option.some.inj h) he
      | i + 1 => exact ih h

theorem destuff_stuff (s : List Byte) : destuff (stuff s) = some s := by
  induction s with
  | nil => rfl
  | cons b s ih => rw [stuff_cons, destuff_sym_append, ih]; rfl

/-! ### The layout of ENCODE's result (R100, R102, R103) -/

section Layout
variable {f : Frame}

theorem stuffedRegion_info (hc : classOf f.ctrl = .info) :
    stuffedRegion f = stuff (f.payload ++ [xorAll f.payload]) := if_pos hc

theorem stuffedRegion_of_ne_info (hc : classOf f.ctrl ≠ .info) : stuffedRegion f = [] := if_neg hc

theorem flag_not_mem_stuffedRegion (f : Frame) : Wire.flag ∉ stuffedRegion f := by
  by_cases hc : classOf f.ctrl = .info
  · rw [stuffedRegion_info hc]; exact flag_not_mem_stuff _
  · rw [stuffedRegion_of_ne_info hc]; exact List.not_mem_nil

theorem encodeFrame_info (hc : classOf f.ctrl = .info) :
    encodeFrame f = [Wire.flag, f.addr, f.ctrl, bcc1 f.addr f.ctrl] ++ stuff (f.payload ++ [xorAll f.payload]) ++
      [Wire.flag] := by
  rw [encodeFrame_eq, stuffedRegion_info hc]

theorem encodeFrame_of_ne_info (hc : classOf f.ctrl ≠ .info) :
    encodeFrame f = [Wire.flag, f.addr, f.ctrl, bcc1 f.addr f.ctrl, Wire.flag] := by
  rw [encodeFrame_eq, stuffedRegion_of_ne_info hc]; rfl

theorem encodeFrame_length (f : Frame) : (encodeFrame f).length = 5 + (stuffedRegion f).length := by
  simp [encodeFrame_eq]; omega

theorem encodeFrame_length_info (hc : classOf f.ctrl = .info) :
    (encodeFrame f).length = 6 + f.payload.length +
      ((f.payload ++ [xorAll f.payload]).filter (fun b => b = Wire.flag ∨ b = Wire.esc)).length := by
  rw [encodeFrame_length, stuffedRegion_info hc, stuff_length, List.length_append, List.length_singleton]
  omega

/-- Behind the header stand the stuffed region and the closing flag. -/
theorem encodeFrame_getElem?_add_four (f : Frame) (i : Nat) :
    (encodeFrame f)[i + 4]? = (stuffedRegion f ++ [Wire.flag])[i]? := rfl

theorem encodeFrame_getElem?_last (f : Frame) : (encodeFrame f)[(encodeFrame f).length - 1]? = some Wire.flag := by
  rw [← List.getLast?_eq_getElem?]; exact List.getLast?_concat

/-- A flag behind the header is the closing one. -/
theorem encodeFrame_flag_behind_header {i : Nat} (h : (encodeFrame f)[i + 4]? = some Wire.flag) :
    i + 4 = (encodeFrame f).length - 1 := by
  rw [encodeFrame_length]
  rw [encodeFrame_getElem?_add_four] at h
  rcases Nat.lt_or_ge i (stuffedRegion f).length with hlt | hge
  · rw [List.getElem?_append_left hlt] at h
    exact absurd (List.mem_of_getElem? h) (flag_not_mem_stuffedRegion f)
  · obtain ⟨hbound, -⟩ := List.getElem?_eq_some_iff.mp h
    rw [List.length_append, List.length_singleton] at hbound
    omega

/-- Where a flag can stand in ENCODE's result (R105). -/
theorem encodeFrame_flag_cases {i : Nat} (h : (encodeFrame f)[i]? = some Wire.flag) :
    i = 0 ∨ i = (encodeFrame f).length - 1 ∨ (i = 1 ∧ f.addr = Wire.flag) ∨ (i = 2 ∧ f.ctrl = Wire.flag) ∨
      (i = 3 ∧ bcc1 f.addr f.ctrl = Wire.flag) :=
  match i with
  | 0 => .inl rfl
  | 1 => .inr (.inr (.inl ⟨rfl, Option.some.inj h⟩))
  | 2 => .inr (.inr (.inr (.inl ⟨rfl, Option.some.inj h⟩)))
  | 3 => .inr (.inr (.inr (.inr ⟨rfl, Option.some.inj h⟩)))
  | _ + 4 => .inr (.inl (encodeFrame_flag_behind_header h))

end Layout

theorem classOf_flag : classOf Wire.flag = .unassigned := by decide

/-- With a conventional address no assigned control byte makes BCC1 a flag: it would be 0x7D or 0x7F (R75). -/
theorem bcc1_ne_flag_of_conventional {a c : Byte} (ha : a = 0x03#8 ∨ a = 0x01#8) (hc : classOf c ≠ .unassigned) :
    bcc1 a c ≠ Wire.flag := by
  intro h
  have hctrl : c = a ^^^ Wire.flag := by rw [← h, bcc1, ← BitVec.xor_assoc, BitVec.xor_self, BitVec.zero_xor]
  subst hctrl
  rcases ha with rfl | rfl <;> exact hc (by decide)

/-! ### DECODE of ENCODE (R104, R122, R124) -/

section DecodeEncode
variable (cfg : Config) {f : Frame}

theorem checkBody_unassigned {a c : Byte} (body : List Byte) (hc : classOf c = .unassigned) :
    checkBody cfg a c body = .err .malformed := by
  simp only [checkBody, hc]

theorem checkBody_supervisory {a c : Byte} (body : List Byte) (hc : classOf c = .supervisory) :
    checkBody cfg a c body = if body = [] then .ok { addr := a, ctrl := c, payload := [] } else .err .malformed := by
  simp only [checkBody, hc]

theorem checkBody_info {a c : Byte} {body d : List Byte} (hc : classOf c = .info) (hd : destuff body = some d) :
    checkBody cfg a c body = checkPayload cfg a c d := by
  simp only [checkBody, hc, hd]

/-- The framing and the header checksum of an encoded frame pass. -/
theorem decodeFrame_encodeFrame (f : Frame) :
    decodeFrame cfg (encodeFrame f) =
      if f.addr = Wire.flag then .err .malformed else checkBody cfg f.addr f.ctrl (stuffedRegion f) := by
  rw [encodeFrame_eq, decodeFrame_framed, checkHeader, if_neg (not_not_intro rfl)]

theorem decodeFrame_encodeFrame_addr_flag (ha : f.addr = Wire.flag) :
    decodeFrame cfg (encodeFrame f) = .err .malformed := by
  rw [decodeFrame_encodeFrame, if_pos ha]

theorem decodeFrame_encodeFrame_unassigned (hc : classOf f.ctrl = .unassigned) :
    decodeFrame cfg (encodeFrame f) = .err .malformed := by
  rw [decodeFrame_encodeFrame, checkBody_unassigned cfg _ hc, ite_self]

theorem decodeFrame_encodeFrame_supervisory (ha : f.addr ≠ Wire.flag) (hc : classOf f.ctrl = .supervisory) :
    decodeFrame cfg (encodeFrame f) = .ok { addr := f.addr, ctrl := f.ctrl, payload := [] } := by
  rw [decodeFrame_encodeFrame, if_neg ha, checkBody_supervisory cfg _ hc,
    if_pos (stuffedRegion_of_ne_info (by simp [hc]))]

theorem decodeFrame_encodeFrame_info (ha : f.addr ≠ Wire.flag) (hc : classOf f.ctrl = .info) :
    decodeFrame cfg (encodeFrame f) = if payloadTooLong cfg f.payload.length then .err .malformed else .ok f := by
  rw [decodeFrame_encodeFrame, if_neg ha, stuffedRegion_info hc, checkBody_info cfg hc (destuff_stuff _),
    checkPayload_concat, if_pos rfl]

/-- DECODE gives back exactly the valid frames (R78, R104, R124). -/
theorem decodeFrame_encodeFrame_eq_ok_iff : decodeFrame cfg (encodeFrame f) = .ok f ↔ Valid cfg f := by
  by_cases ha : f.addr = Wire.flag
  · simp [decodeFrame_encodeFrame_addr_flag cfg ha, ha]
  cases hc : classOf f.ctrl with
  | unassigned => simp [decodeFrame_encodeFrame_unassigned cfg hc, hc]
  | supervisory =>
    obtain ⟨a, c, p⟩ := f
    rw [decodeFrame_encodeFrame_supervisory cfg ha hc]
    constructor
    · intro h
      obtain rfl : [] = p := by simpa using h
      exact ⟨ha, by simp [hc], fun _ => rfl, payloadTooLong_zero cfg⟩
    · rintro ⟨-, -, hp, -⟩
      obtain rfl : p = [] := hp hc
      rfl
  | info =>
    rw [decodeFrame_encodeFrame_info cfg ha hc]
    cases hlen : payloadTooLong cfg f.payload.length <;> simp [Valid, ha, hc, hlen]

end DecodeEncode

end Sys2Proof.Machine
end

section
/-! PROOFS. The obligations of 40_encoder.md. -/

namespace Sys2Proof.Proofs
open Sys2Proof.Machine

/-- Settles O33, from the stuffing of one byte: the equations by definition, the rest by induction on the sequence. -/
theorem stuffingLaws : Obligations.StuffingLaws := by
  unfold Obligations.StuffingLaws
  exact ⟨stuff_nil, stuff_flag_cons, stuff_esc_cons, fun b s => stuff_literal_cons s, stuff_length, flag_not_mem_stuff,
    fun s i => stuff_succ_of_esc⟩

/-- Settles O34: two flags and the header are five bytes, and the stuffed region has the length of O33. -/
theorem encodedLength : Obligations.EncodedLength := by
  unfold Obligations.EncodedLength
  intro s f
  exact ⟨encodeFrame f, exec_encode f s, fun hc => by rw [encodeFrame_of_ne_info hc]; rfl, encodeFrame_length_info⟩

/-- Settles O35: a flag stands at the two ends or in the header, and in the header of a valid frame with a conventional
address none of the three bytes is one. -/
theorem flagPositionsInEncoding : Obligations.FlagPositionsInEncoding := by
  unfold Obligations.FlagPositionsInEncoding
  intro s f
  refine ⟨encodeFrame f, exec_encode f s, rfl, encodeFrame_getElem?_last f, fun i => encodeFrame_flag_cases, ?_⟩
  rintro ⟨haddr, hctrl, -, -⟩ hconv i hi
  rcases encodeFrame_flag_cases hi with h | h | ⟨-, h⟩ | ⟨-, h⟩ | ⟨-, h⟩
  · exact .inl h
  · exact .inr h
  · exact absurd h haddr
  · exact absurd (h ▸ classOf_flag) hctrl
  · exact absurd h (bcc1_ne_flag_of_conventional hconv hctrl)

/-- Settles O39: DECODE gives back only valid frames, and each way of not being valid has its verdict. -/
theorem decodeOfEncodedInvalidFrame : Obligations.DecodeOfEncodedInvalidFrame := by
  unfold Obligations.DecodeOfEncodedInvalidFrame
  intro s f hinvalid
  refine ⟨encodeFrame f, decodeFrame s.cfg (encodeFrame f), exec_encode f s, exec_decode _ s,
    fun h => hinvalid ((decodeFrame_encodeFrame_eq_ok_iff s.cfg).mp h), ?_,
    decodeFrame_encodeFrame_supervisory s.cfg⟩
  rintro (ha | hc | ⟨hc, hlong⟩)
  · exact decodeFrame_encodeFrame_addr_flag s.cfg ha
  · exact decodeFrame_encodeFrame_unassigned s.cfg hc
  · by_cases ha : f.addr = Wire.flag
    · exact decodeFrame_encodeFrame_addr_flag s.cfg ha
    · rw [decodeFrame_encodeFrame_info s.cfg ha hc, if_pos ((payloadTooLong_iff _ _).mpr hlong)]

/-- Settles O32: ENCODE hands over its result and writes nothing else, and the class decides its layout. -/
theorem encodeEmitsFrame : Obligations.EncodeEmitsFrame := by
  unfold Obligations.EncodeEmitsFrame
  refine fun s f => ⟨fun hc => ?_, fun hc => ?_⟩
  · rw [exec_encode, encodeFrame_info hc]; rfl
  · rw [exec_encode, encodeFrame_of_ne_info hc]; rfl

end Sys2Proof.Proofs
end

section
/-! PROOFS. What 41_decoder.md's statements share: destuffing symbol by symbol, DECODE's checks one by one, that DECODE
accepts nothing but ENCODE's results for valid frames, the FEEDs of such a result, and what one inverted bit does to
it. -/

namespace Sys2Proof.Machine

/-! ### Destuffing (R121) -/

theorem destuff_flag (s : List Byte) : destuff (Wire.flag :: s) = none := by
  cases s <;> simp [destuff]

theorem destuff_trailing_esc : destuff [Wire.esc] = none := by simp [destuff]

theorem destuff_escFlag (s : List Byte) :
    destuff (Wire.esc :: Wire.escFlagSucc :: s) = (destuff s).map (Wire.flag :: ·) :=
  destuff_sym_append Wire.flag s

theorem destuff_escEsc (s : List Byte) :
    destuff (Wire.esc :: Wire.escEscSucc :: s) = (destuff s).map (Wire.esc :: ·) :=
  destuff_sym_append Wire.esc s

theorem destuff_escBad {x : Byte} (s : List Byte) (hf : x ≠ Wire.escFlagSucc) (he : x ≠ Wire.escEscSucc) :
    destuff (Wire.esc :: x :: s) = none := by
  simp [destuff, hf, he]

/-! ### DECODE's checks, one by one (R122) -/

section Checks
variable (cfg : Config) {a c : Byte}

/-- Step 1: the framing. -/
theorem decodeFrame_unframed {raw : List Byte}
    (h : raw.length < 5 ∨ raw.head? ≠ some Wire.flag ∨ raw.getLast? ≠ some Wire.flag) :
    decodeFrame cfg raw = .err .malformed := if_pos h

/-- Step 2: the header checksum. -/
theorem checkHeader_mismatch {b1 : Byte} (body : List Byte) (h : b1 ≠ bcc1 a c) :
    checkHeader cfg a c b1 body = .err .checksumMismatch := if_pos h

/-- Step 3: the address. -/
theorem checkHeader_addr_flag (body : List Byte) (ha : a = Wire.flag) :
    checkHeader cfg a c (bcc1 a c) body = .err .malformed := by
  rw [checkHeader, if_neg (not_not_intro rfl), if_pos ha]

theorem checkHeader_pass (body : List Byte) (ha : a ≠ Wire.flag) :
    checkHeader cfg a c (bcc1 a c) body = checkBody cfg a c body := by
  rw [checkHeader, if_neg (not_not_intro rfl), if_neg ha]

/-- Step 6: the payload of a destuffed body fits, in terms of the body's length (R122). -/
theorem payloadTooLong_eq_false_iff {cfg : Config} {p : List Byte} (b2 : Byte) :
    payloadTooLong cfg p.length = false ↔ ∀ m, cfg.maxPayload = some m → (p ++ [b2]).length ≤ m + 1 := by
  rw [← Bool.not_eq_true, payloadTooLong_iff]
  simp

/-- Step 6: a body that does not destuff, or that destuffs to nothing. -/
theorem checkBody_info_without_bcc2 {body : List Byte} (hc : classOf c = .info)
    (hd : destuff body = none ∨ destuff body = some []) : checkBody cfg a c body = .err .malformed := by
  rcases hd with hd | hd
  · simp only [checkBody, hc, hd]
  · rw [checkBody_info cfg hc hd, checkPayload_nil]

end Checks

/-! ### What DECODE accepts (R122, R124) -/

section Accepts
variable {cfg : Config} {a c : Byte} {f : Frame}

theorem checkPayload_eq_ok {d : List Byte} (h : checkPayload cfg a c d = .ok f) :
    f.addr = a ∧ f.ctrl = c ∧ d = f.payload ++ [xorAll f.payload] := by
  rcases List.eq_nil_or_concat d with rfl | ⟨p, b2, rfl⟩
  · cases h
  · rw [List.concat_eq_append, checkPayload_concat] at h
    split_ifs at h with _ hx
    cases h
    exact ⟨rfl, rfl, by rw [hx, List.concat_eq_append]⟩

theorem checkBody_eq_ok {body : List Byte} (h : checkBody cfg a c body = .ok f) :
    f.addr = a ∧ f.ctrl = c ∧ body = stuffedRegion f := by
  cases hc : classOf c with
  | unassigned => rw [checkBody_unassigned cfg body hc] at h; cases h
  | supervisory =>
    rw [checkBody_supervisory cfg body hc] at h
    split_ifs at h with hbody
    cases h
    exact ⟨rfl, rfl, by rw [hbody, stuffedRegion_of_ne_info (by simp [hc])]⟩
  | info =>
    cases hd : destuff body with
    | none => rw [checkBody_info_without_bcc2 cfg hc (.inl hd)] at h; cases h
    | some d =>
      rw [checkBody_info cfg hc hd] at h
      obtain ⟨ha, hctrl, hpayload⟩ := checkPayload_eq_ok h
      refine ⟨ha, hctrl, ?_⟩
      rw [stuffedRegion_info (hctrl ▸ hc), ← hpayload, stuff_of_destuff hd]

/-- DECODE accepts nothing but ENCODE's results. -/
theorem decodeFrame_eq_ok {raw : List Byte} (h : decodeFrame cfg raw = .ok f) : raw = encodeFrame f := by
  by_cases hframing : raw.length < 5 ∨ raw.head? ≠ some Wire.flag ∨ raw.getLast? ≠ some Wire.flag
  · rw [decodeFrame_unframed cfg hframing] at h; cases h
  simp only [not_or, not_not, Nat.not_lt] at hframing
  obtain ⟨hlen, hfirst, hlast⟩ := hframing
  obtain ⟨a, c, b1, body, rfl⟩ := framed_of_checks hlen hfirst hlast
  rw [decodeFrame_framed] at h
  by_cases hb : b1 = bcc1 a c
  case neg => rw [checkHeader_mismatch cfg body hb] at h; cases h
  by_cases ha : a = Wire.flag
  case pos => rw [hb, checkHeader_addr_flag cfg body ha] at h; cases h
  rw [hb, checkHeader_pass cfg body ha] at h
  obtain ⟨rfl, rfl, rfl⟩ := checkBody_eq_ok h
  rw [hb, encodeFrame_eq]

/-- DECODE accepts exactly ENCODE's results for valid frames. -/
theorem decodeFrame_eq_ok_iff {raw : List Byte} :
    decodeFrame cfg raw = .ok f ↔ Valid cfg f ∧ raw = encodeFrame f := by
  constructor
  · intro h
    obtain rfl := decodeFrame_eq_ok h
    exact ⟨(decodeFrame_encodeFrame_eq_ok_iff cfg).mp h, rfl⟩
  · rintro ⟨hvalid, rfl⟩
    exact (decodeFrame_encodeFrame_eq_ok_iff cfg).mpr hvalid

end Accepts

/-! ### The FEEDs of ENCODE's result for a valid frame (R125) -/

section Feeds
variable {cfg : Config} {f : Frame}

/-- The stuffed region of a valid frame and its closing flag deliver the frame (R146, R148, R149). -/
theorem rxRun_stuffedRegion (hv : Valid cfg f) :
    rxRun cfg ⟨.bccRcv, f.addr, f.ctrl, false, []⟩ (stuffedRegion f ++ [Wire.flag]) =
      (⟨.start, f.addr, f.ctrl, false, []⟩, contEvents (stuffedRegion f).length ++ [.frameReady f]) := by
  obtain ⟨-, hassigned, hpayload, hlen⟩ := hv
  cases hc : classOf f.ctrl with
  | unassigned => exact absurd hc hassigned
  | supervisory =>
    have hframe : Frame.mk f.addr f.ctrl [] = f := by rw [← hpayload hc]
    rw [stuffedRegion_of_ne_info (by simp [hc])]
    simp [rxRun, rxFeed_close_supervisory hc, hframe]
  | info =>
    have hregion := rxRun_stuffed (a := f.addr) (buf := []) hc (f.payload ++ [xorAll f.payload])
      (by simpa using (payloadTooLong_eq_false_iff (xorAll f.payload)).mp hlen)
    rw [stuffedRegion_info hc, rxRun_append_of hregion]
    simp [rxRun, rxFeed_close_info hc]

/-- A receiver that waits for a frame takes ENCODE's result for a valid one, and reports it on the closing flag. -/
theorem rxRun_encodeFrame (hv : Valid cfg f) {r : Rx} (hs : r.state = .start ∨ r.state = .flagRcv) :
    rxRun cfg r (encodeFrame f) =
      (⟨.start, f.addr, f.ctrl, false, []⟩, contEvents ((encodeFrame f).length - 1) ++ [.frameReady f]) := by
  obtain ⟨st, a, c, e, buf⟩ := r
  have ⟨haddr, _, _, _⟩ := hv
  have hlen : (encodeFrame f).length - 1 = 4 + (stuffedRegion f).length := by rw [encodeFrame_length]; omega
  rw [hlen, encodeFrame_eq, List.append_assoc, rxRun_append_of (rxRun_header f.ctrl hs haddr), rxRun_stuffedRegion hv,
    ← List.append_assoc, ← List.replicate_add]

end Feeds

/-! ### One inverted bit (R126)

The exclusive-OR of the WIRE bytes of every result of ENCODE is 0x00 or 0x5D. One inverted bit changes it by a power of
two, and neither 0x00 nor 0x5D is one. So a result of ENCODE with one inverted bit is no result of ENCODE. -/

/-- Stuffing a byte changes its exclusive-OR by nothing or by 0x5D, since 7D ^ 5E = 7E ^ 5D and 7D ^ 5D = 7D ^ 5D. -/
theorem xorAll_sym (b : Byte) : xorAll (sym b) = b ∨ xorAll (sym b) = b ^^^ 0x5D#8 := by
  rcases sym_cases b with ⟨rfl, hsym⟩ | ⟨rfl, hsym⟩ | ⟨-, -, hsym⟩ <;> rw [hsym]
  · exact .inr (by decide)
  · exact .inr (by decide)
  · exact .inl (by simp [xorAll_cons])

theorem xorAll_stuff (s : List Byte) : xorAll (stuff s) = xorAll s ∨ xorAll (stuff s) = xorAll s ^^^ 0x5D#8 := by
  induction s with
  | nil => exact .inl rfl
  | cons b s ih =>
    rw [stuff_cons, xorAll_append, xorAll_cons]
    rcases xorAll_sym b with hb | hb <;> rcases ih with hs | hs <;> rw [hb, hs]
    · exact .inl rfl
    · exact .inr (BitVec.xor_assoc _ _ _).symm
    · exact .inr (by ac_rfl)
    · left
      calc b ^^^ 0x5D#8 ^^^ (xorAll s ^^^ 0x5D#8) = b ^^^ xorAll s ^^^ (0x5D#8 ^^^ 0x5D#8) := by ac_rfl
        _ = b ^^^ xorAll s := BitVec.xor_zero

theorem xorAll_header (a c : Byte) : xorAll [a, c, bcc1 a c] = 0x00#8 := by
  simp [xorAll, bcc1]

/-- The flags cancel each other, and the header has its checksum. -/
theorem xorAll_encodeFrame_eq (f : Frame) : xorAll (encodeFrame f) = xorAll (stuffedRegion f) := by
  have hparts : encodeFrame f =
      [Wire.flag] ++ [f.addr, f.ctrl, bcc1 f.addr f.ctrl] ++ stuffedRegion f ++ [Wire.flag] := rfl
  calc xorAll (encodeFrame f)
      = Wire.flag ^^^ 0x00#8 ^^^ xorAll (stuffedRegion f) ^^^ Wire.flag := by
        rw [hparts, xorAll_concat, xorAll_append, xorAll_append, xorAll_header]; rfl
    _ = Wire.flag ^^^ Wire.flag ^^^ xorAll (stuffedRegion f) := by rw [BitVec.xor_zero]; ac_rfl
    _ = xorAll (stuffedRegion f) := by rw [BitVec.xor_self, BitVec.zero_xor]

theorem xorAll_encodeFrame (f : Frame) : xorAll (encodeFrame f) = 0x00#8 ∨ xorAll (encodeFrame f) = 0x5D#8 := by
  rw [xorAll_encodeFrame_eq]
  by_cases hc : classOf f.ctrl = .info
  · have hbcc2 : xorAll (f.payload ++ [xorAll f.payload]) = 0x00#8 := by rw [xorAll_concat, BitVec.xor_self]
    rw [stuffedRegion_info hc]
    simpa [hbcc2] using xorAll_stuff (f.payload ++ [xorAll f.payload])
  · exact .inl (by rw [stuffedRegion_of_ne_info hc, xorAll_nil])

theorem xorAll_set {s : List Byte} {i : Nat} {b : Byte} (x : Byte) (h : s[i]? = some b) :
    xorAll (s.set i (b ^^^ x)) = xorAll s ^^^ x := by
  induction s generalizing i with
  | nil => simp at h
  | cons y s ih =>
    match i with
    | 0 =>
      obtain rfl : y = b := Option.some.inj h
      rw [List.set_cons_zero, xorAll_cons, xorAll_cons]
      ac_rfl
    | i + 1 => rw [List.set_cons_succ, xorAll_cons, xorAll_cons, ih h, BitVec.xor_assoc]

theorem twoPow_ne_zero (k : Fin 8) : BitVec.twoPow 8 k ≠ 0x00#8 := by
  revert k; decide

theorem twoPow_ne_stuffing_change (k : Fin 8) : BitVec.twoPow 8 k ≠ 0x5D#8 := by
  revert k; decide

section Flip
variable (cfg : Config) {f : Frame} {i : Nat} {b : Byte} (k : Fin 8)

/-- DECODE never accepts ENCODE's result with one inverted bit, wherever the bit is. -/
theorem decodeFrame_flip_ne_ok (g : Frame) (h : (encodeFrame f)[i]? = some b) :
    decodeFrame cfg ((encodeFrame f).set i (b ^^^ BitVec.twoPow 8 k)) ≠ .ok g := by
  intro hok
  have hx := xorAll_set (BitVec.twoPow 8 k) h
  rw [decodeFrame_eq_ok hok] at hx
  have hk : BitVec.twoPow 8 k = xorAll (encodeFrame f) ^^^ xorAll (encodeFrame g) := by
    rw [hx, ← BitVec.xor_assoc, BitVec.xor_self, BitVec.zero_xor]
  rcases xorAll_encodeFrame f with hf | hf <;> rcases xorAll_encodeFrame g with hg | hg <;> rw [hf, hg] at hk
  · exact twoPow_ne_zero k hk
  · exact twoPow_ne_stuffing_change k hk
  · exact twoPow_ne_stuffing_change k hk
  · exact twoPow_ne_zero k hk

/-- An inverted bit of a header with its checksum leaves a header whose checksum is wrong. -/
theorem header_flip_mismatch {a c : Byte} (h : [a, c, bcc1 a c][i]? = some b) :
    ∃ a' c' b1, [a, c, bcc1 a c].set i (b ^^^ BitVec.twoPow 8 k) = [a', c', b1] ∧ b1 ≠ bcc1 a' c' := by
  obtain ⟨a', c', b1, hset⟩ := List.length_eq_three.mp
    (show ([a, c, bcc1 a c].set i (b ^^^ BitVec.twoPow 8 k)).length = 3 from List.length_set)
  refine ⟨a', c', b1, hset, ?_⟩
  rintro rfl
  have hx := xorAll_set (BitVec.twoPow 8 k) h
  rw [hset, xorAll_header, xorAll_header, BitVec.zero_xor] at hx
  exact twoPow_ne_zero k hx.symm

theorem decodeFrame_flip_header (h : (encodeFrame f)[i + 1]? = some b) (hi : i < 3) :
    decodeFrame cfg ((encodeFrame f).set (i + 1) (b ^^^ BitVec.twoPow 8 k)) = .err .checksumMismatch := by
  have hparts : encodeFrame f =
      Wire.flag :: ([f.addr, f.ctrl, bcc1 f.addr f.ctrl] ++ (stuffedRegion f ++ [Wire.flag])) := rfl
  rw [hparts, List.getElem?_cons_succ, List.getElem?_append_left hi] at h
  obtain ⟨a', c', b1, hset, hb1⟩ := header_flip_mismatch k h
  rw [hparts, List.set_cons_succ, List.set_append_left _ _ hi, hset]
  exact (decodeFrame_framed cfg a' c' b1 (stuffedRegion f)).trans (checkHeader_mismatch cfg _ hb1)

theorem flag_flip_ne_flag : Wire.flag ^^^ BitVec.twoPow 8 k ≠ Wire.flag := by
  revert k; decide

theorem decodeFrame_flip_flag (h : (encodeFrame f)[i]? = some b) (hi : i = 0 ∨ i = (encodeFrame f).length - 1) :
    decodeFrame cfg ((encodeFrame f).set i (b ^^^ BitVec.twoPow 8 k)) = .err .malformed := by
  obtain ⟨hlt, -⟩ := List.getElem?_eq_some_iff.mp h
  refine decodeFrame_unframed cfg (.inr ?_)
  rcases hi with rfl | rfl
  · obtain rfl : Wire.flag = b := Option.some.inj h
    left
    rw [List.head?_eq_getElem?, List.getElem?_set_self hlt]
    exact fun heq => flag_flip_ne_flag k (Option.some.inj heq)
  · obtain rfl : Wire.flag = b := Option.some.inj ((encodeFrame_getElem?_last f).symm.trans h)
    right
    rw [List.getLast?_eq_getElem?, List.length_set, List.getElem?_set_self hlt]
    exact fun heq => flag_flip_ne_flag k (Option.some.inj heq)

end Flip

end Sys2Proof.Machine
end

section
/-! PROOFS. The obligations of 41_decoder.md. -/

namespace Sys2Proof.Proofs
open Sys2Proof.Machine

/-- Settles O38: the valid frames are those that DECODE gives back from ENCODE's result. -/
theorem decodeOfEncodedValidFrame : Obligations.DecodeOfEncodedValidFrame := by
  unfold Obligations.DecodeOfEncodedValidFrame
  intro s f hvalid
  refine ⟨encodeFrame f, exec_encode f s, ?_⟩
  rw [exec_decode, (decodeFrame_encodeFrame_eq_ok_iff s.cfg).mpr hvalid]
  rfl

/-- Settles O40: no place of the bit lets DECODE accept, a header bit fails the header checksum, and a flag bit the
framing. -/
theorem singleBitFlipIsDetected : Obligations.SingleBitFlipIsDetected := by
  unfold Obligations.SingleBitFlipIsDetected
  intro s f _
  refine ⟨encodeFrame f, exec_encode f s, fun i k b hb =>
    ⟨_, exec_decode _ s, ?_, decodeFrame_flip_flag s.cfg k hb, ?_⟩⟩
  · rintro (rfl | rfl | rfl) <;> exact decodeFrame_flip_header s.cfg k hb (by decide)
  · intro _ _
    cases hv : decodeFrame s.cfg ((encodeFrame f).set i (b ^^^ BitVec.twoPow 8 k)) with
    | ok g => exact absurd hv (decodeFrame_flip_ne_ok s.cfg k g hb)
    | err r => cases r with
      | checksumMismatch => exact .inl rfl
      | malformed => exact .inr rfl

/-- Settles O47: what DECODE accepts is ENCODE's result for a valid frame, whose FEEDs report the frame. -/
theorem feedAcceptsWhatDecodeAccepts : Obligations.FeedAcceptsWhatDecodeAccepts := by
  unfold Obligations.FeedAcceptsWhatDecodeAccepts
  intro s raw f hdecode hstate _ _
  have hok : decodeFrame s.cfg raw = .ok f := by simpa [exec_decode, State.give] using hdecode
  obtain ⟨hvalid, rfl⟩ := decodeFrame_eq_ok_iff.mp hok
  rw [execAll_feeds, takeBytes_eq_rxRun, rxRun_encodeFrame hvalid hstate, List.map_append, map_contEvents]
  simp

/-- Settles O36, symbol by symbol; that it reverses stuffing is by induction on the sequence. -/
theorem destuffingLaws : Obligations.DestuffingLaws := by
  unfold Obligations.DestuffingLaws
  exact ⟨rfl, destuff_flag, destuff_trailing_esc, destuff_escFlag, destuff_escEsc, fun x s => destuff_escBad s,
    fun b s => destuff_literal s, destuff_stuff⟩

/-- Settles O37, check by check: the framing, the header's two checks, and the body's checks by the class. -/
theorem decodeChecksInOrder : Obligations.DecodeChecksInOrder := by
  unfold Obligations.DecodeChecksInOrder
  intro s raw
  refine ⟨decodeFrame s.cfg raw, exec_decode raw s, ?_, ?_⟩
  · rw [← List.head?_eq_getElem?, ← List.getLast?_eq_getElem?]
    exact decodeFrame_unframed s.cfg
  rintro a c b1 body rfl
  rw [decodeFrame_framed]
  refine ⟨checkHeader_mismatch s.cfg body, ?_, ?_⟩
  · rintro rfl ha
    exact checkHeader_addr_flag s.cfg body ha
  rintro rfl ha
  have hpass : checkHeader s.cfg a c (a ^^^ c) body = checkBody s.cfg a c body := checkHeader_pass s.cfg body ha
  rw [hpass]
  refine ⟨checkBody_unassigned s.cfg body, fun hc hbody => ?_, fun hc hbody => ?_,
    checkBody_info_without_bcc2 s.cfg, fun p b2 hc hd => ?_⟩
  · rw [checkBody_supervisory s.cfg body hc, if_neg hbody]
  · rw [checkBody_supervisory s.cfg body hc, if_pos hbody]
  rw [checkBody_info s.cfg hc hd, checkPayload_concat]
  constructor
  · rintro ⟨m, hm, hlong⟩
    rw [List.length_append, List.length_singleton, Nat.add_lt_add_iff_right] at hlong
    rw [if_pos ((payloadTooLong_iff _ _).mpr ⟨m, hm, hlong⟩)]
  · intro hfits
    rw [(payloadTooLong_eq_false_iff b2).mpr hfits, if_neg Bool.false_ne_true]
    exact ⟨fun hx => if_neg hx, fun hx => if_pos hx⟩

end Sys2Proof.Proofs
end

section
/-! PROOFS. What 42_receiver.md's statements share about a receiver that waits for a frame: the FEED of one byte as a
command, what noise and flags do to the receiver, and that it takes an encoded frame behind them. -/

namespace Sys2Proof.Machine

/-! ### One FEED as a command -/

theorem exec_feed_of_rxFeed {s : State} {b : Byte} {r : Rx} {e : Event} (h : rxFeed s.cfg s.rx b = (r, e)) :
    exec (.feed b) s = .next (s.fed r e) := by
  rw [exec_feed, takeByte, h, State.afterFeed_eq]

/-- What a FEED that completes tells of its one event. -/
theorem rxFeed_event_of_exec_feed {s t : State} {b : Byte} {e : Event} (h : exec (.feed b) s = .next t)
    (ht : t.results = s.results ++ [.event e]) : (rxFeed s.cfg s.rx b).2 = e := by
  rw [exec_feed] at h
  obtain rfl := Host.Outcome.next.inj h
  simpa using ht

section OneFeed
variable {cfg : Config} {r : Rx} {b : Byte}

/-- An Error comes only from CtrlRcv or BccRcv: the three arms before them always answer Continue (R152). -/
theorem rxFeed_event_of_header (hctrl : r.state ≠ .ctrlRcv) (hbcc : r.state ≠ .bccRcv) :
    (rxFeed cfg r b).2 = .cont := by
  cases hs : r.state with
  | start => rw [rxFeed_start b hs, feedStart]; split <;> rfl
  | flagRcv => rw [rxFeed_flagRcv b hs, feedFlagRcv]; split <;> rfl
  | addrRcv => rw [rxFeed_addrRcv b hs]; rfl
  | ctrlRcv => exact absurd hs hctrl
  | bccRcv => exact absurd hs hbcc

/-- A Continue out of BccRcv stays there. -/
theorem FeedOutcome.state_of_cont {out : Rx × Event} (h : FeedOutcome cfg r out) (hs : r.state = .bccRcv)
    (he : out.2 = .cont) : out.1.state = .bccRcv := by
  cases h with
  | header st a c hne _ => exact absurd hs hne
  | opened => rfl
  | escaped _ _ | held _ _ _ _ => exact hs
  | deliveredSupervisory _ | deliveredInfo _ _ _ _ | failed _ => cases he

/-- A Continue leaves the receiver in Start only if it was there (R151). -/
theorem rxFeed_start_of_cont (he : (rxFeed cfg r b).2 = .cont) (h : (rxFeed cfg r b).1.state = .start) :
    r.state = .start := by
  cases hs : r.state with
  | start => rfl
  | flagRcv =>
    rw [rxFeed_flagRcv b hs, feedFlagRcv] at h
    split at h
    · rw [hs] at h; cases h
    · cases h
  | addrRcv => rw [rxFeed_addrRcv b hs] at h; cases h
  | ctrlRcv =>
    rw [rxFeed_ctrlRcv b hs, feedCtrlRcv] at h he
    split at h
    · cases h
    · next hb => rw [if_neg hb] at he; cases he
  | bccRcv => rw [(rxFeed_outcome cfg r b).state_of_cont hs he] at h; cases h

end OneFeed

/-! ### Noise and flags (R142, R143, R152) -/

theorem contEvents_add (m n : Nat) : contEvents (m + n) = contEvents m ++ contEvents n := List.replicate_add m n _

section Waiting
variable {cfg : Config} {r : Rx}

/-- Flags open a frame or are absorbed. -/
theorem rxRun_flags_of_waiting (hs : r.state = .start ∨ r.state = .flagRcv) {n : Nat} (hn : 0 < n) :
    rxRun cfg r (List.replicate n Wire.flag) = ({ r with state := .flagRcv }, contEvents n) := by
  obtain ⟨st, a, c, e, buf⟩ := r
  obtain ⟨n, rfl⟩ := Nat.exists_eq_succ_of_ne_zero hn.ne'
  rcases hs with rfl | rfl
  · rw [List.replicate_succ, rxRun, rxFeed_open, rxRun_flags]; rfl
  · exact rxRun_flags _

/-- After noise and flags the receiver still waits for a frame. -/
theorem rxRun_idle (hs : r.state = .start) {noise : List Byte} (hn : ∀ b ∈ noise, b ≠ Wire.flag) (k : Nat) :
    ∃ r', (r'.state = .start ∨ r'.state = .flagRcv) ∧
      rxRun cfg r (noise ++ List.replicate k Wire.flag) = (r', contEvents (noise.length + k)) := by
  obtain ⟨st, a, c, e, buf⟩ := r
  obtain rfl : st = .start := hs
  rw [rxRun_append_of (rxRun_noise hn)]
  rcases Nat.eq_zero_or_pos k with rfl | hk
  · exact ⟨⟨.start, a, c, e, buf⟩, .inl rfl, by simp [rxRun]⟩
  · exact ⟨_, .inr rfl, by rw [rxRun_flags_of_waiting (.inl rfl) hk, ← contEvents_add]⟩

/-- A receiver in Start takes an encoded valid frame behind noise and flags. -/
theorem rxRun_idle_encodeFrame {f : Frame} (hv : Valid cfg f) (hs : r.state = .start) {noise : List Byte}
    (hn : ∀ b ∈ noise, b ≠ Wire.flag) (k : Nat) :
    rxRun cfg r (noise ++ List.replicate k Wire.flag ++ encodeFrame f) =
      (⟨.start, f.addr, f.ctrl, false, []⟩,
        contEvents (noise.length + k + (encodeFrame f).length - 1) ++ [.frameReady f]) := by
  obtain ⟨r', hs', hidle⟩ := rxRun_idle (cfg := cfg) hs hn k
  have hlen : noise.length + k + (encodeFrame f).length - 1 =
      noise.length + k + ((encodeFrame f).length - 1) := by rw [encodeFrame_length]; omega
  rw [rxRun_append_of hidle, rxRun_encodeFrame hv hs', hlen, contEvents_add _ (_ - 1), List.append_assoc]

end Waiting

/-! ### A stream of frames (R153) -/

/-- The bytes of frames, each behind some noise and flags. -/
def framedStream (gaps : List (List Byte × Nat × Frame)) : List Byte :=
  gaps.flatMap fun g => g.1 ++ List.replicate g.2.1 Wire.flag ++ encodeFrame g.2.2

/-- The results of such a stream: FrameReady on each closing flag, and Continue for every other byte. -/
def framedResults (gaps : List (List Byte × Nat × Frame)) : List Result :=
  gaps.flatMap fun g =>
    conts (g.1.length + g.2.1 + (encodeFrame g.2.2).length - 1) ++ [.event (.frameReady g.2.2)]

theorem rxRun_framedStream {cfg : Config} {r : Rx} (hs : r.state = .start) {gaps : List (List Byte × Nat × Frame)}
    (hg : ∀ g ∈ gaps, (∀ b ∈ g.1, b ≠ Wire.flag) ∧ Valid cfg g.2.2) :
    (rxRun cfg r (framedStream gaps)).1.state = .start ∧
      (rxRun cfg r (framedStream gaps)).2.map .event = framedResults gaps := by
  induction gaps generalizing r with
  | nil => exact ⟨hs, rfl⟩
  | cons g gaps ih =>
    obtain ⟨hnoise, hvalid⟩ := hg g List.mem_cons_self
    have hframe := rxRun_idle_encodeFrame hvalid hs hnoise g.2.1
    obtain ⟨hstate, hresults⟩ := ih (r := ⟨.start, g.2.2.addr, g.2.2.ctrl, false, []⟩) rfl
      fun g' hg' => hg g' (List.mem_cons_of_mem g hg')
    rw [framedStream, List.flatMap_cons, ← framedStream, framedResults, List.flatMap_cons, ← framedResults,
      rxRun_append_of hframe]
    exact ⟨hstate, by rw [List.map_append, List.map_append, map_contEvents, hresults]; rfl⟩

end Sys2Proof.Machine
end

section
/-! PROOFS. Resynchronization (R154): an encoded frame with one byte replaced by a flag gives one event that is not
Continue, and leaves the receiver in Start with nothing but noise and flags to come.

A flag in place of the address shifts the header by one byte, so the control byte is read as the address. A flag in
place of the control byte or of BCC1 fails the header checksum. A flag in the stuffed region closes the frame early. -/

namespace Sys2Proof.Machine

/-! ### One report, then noise and flags -/

/-- The bytes give the event `e` and no other but Continue; `e` brings the receiver to Start, and what follows it is
noise and flags. -/
def ReportsOnce (cfg : Config) (r : Rx) (bs : List Byte) (e : Event) : Prop :=
  ∃ head noise k n r', bs = head ++ (noise ++ List.replicate k Wire.flag) ∧ (∀ b ∈ noise, b ≠ Wire.flag) ∧
    rxRun cfg r head = (r', contEvents n ++ [e]) ∧ r'.state = .start ∧ e ≠ .cont

theorem notable_report (n : Nat) {e : Event} (he : e ≠ .cont) :
    notable ((contEvents n ++ [e]).map .event) = [e] := by
  rw [List.map_append, map_contEvents, notable_append, notable_conts]
  cases e with
  | cont => exact absurd rfl he
  | frameReady f => rfl
  | error why => rfl

namespace ReportsOnce
variable {cfg : Config} {r r' : Rx} {bs rest : List Byte} {b : Byte} {e : Event}

/-- Bytes in front that give Continue. -/
theorem after {front : List Byte} {n : Nat} (h : rxRun cfg r front = (r', contEvents n))
    (hrep : ReportsOnce cfg r' bs e) : ReportsOnce cfg r (front ++ bs) e := by
  obtain ⟨head, noise, k, n', r'', rfl, hnoise, hrun, hs, he⟩ := hrep
  refine ⟨front ++ head, noise, k, n + n', r'', (List.append_assoc _ _ _).symm, hnoise, ?_, hs, he⟩
  rw [rxRun_append_of h, hrun, contEvents_add, List.append_assoc]

/-- The first byte gives the event, and it is the last byte. -/
theorem of_last (h : rxFeed cfg r b = (r', e)) (hs : r'.state = .start) (he : e ≠ .cont) :
    ReportsOnce cfg r [b] e :=
  ⟨[b], [], 0, 0, r', rfl, nofun, by rw [rxRun, rxRun, h]; rfl, hs, he⟩

/-- The first byte gives the event, and the rest of a frame follows. -/
theorem of_first (h : rxFeed cfg r b = (r', e)) (hs : r'.state = .start) (he : e ≠ .cont)
    (hrest : Wire.flag ∉ rest) :
    ReportsOnce cfg r (b :: (rest ++ [Wire.flag])) e :=
  ⟨[b], rest, 1, 0, r', rfl, List.forall_mem_ne'.mpr hrest, by rw [rxRun, rxRun, h]; rfl, hs, he⟩

/-- A valid frame behind the bytes is received. -/
theorem notable_then_frame {f : Frame} (hrep : ReportsOnce cfg r bs e) (hv : Valid cfg f) :
    notable ((rxRun cfg r (bs ++ encodeFrame f)).2.map .event) = [e, .frameReady f] := by
  obtain ⟨head, noise, k, n, r', rfl, hnoise, hrun, hs, he⟩ := hrep
  rw [List.append_assoc, rxRun_append_of hrun, rxRun_idle_encodeFrame hv hs hnoise, List.map_append, notable_append,
    notable_report n he, notable_report _ (e := .frameReady f) nofun]
  rfl

end ReportsOnce

/-- What the first event says of the damaged frame `g`: in the exceptional case a frame other than `g`, else an
error. -/
def FirstReport (g : Frame) (exceptional : Prop) (e : Event) : Prop :=
  (exceptional → ∃ g', e = .frameReady g' ∧ g' ≠ g) ∧ (¬ exceptional → ∃ why, e = .error why)

theorem FirstReport.of_error {g : Frame} {exceptional : Prop} {why : Reason} (h : ¬ exceptional) :
    FirstReport g exceptional (.error why) :=
  ⟨fun h' => absurd h' h, fun _ => ⟨why, rfl⟩⟩

/-! ### The flag that closes an information frame -/

/-- The event of a closing flag in an I-frame that holds `d`: the last byte held is BCC2, so the checksum agrees exactly
when `d` folds to zero (R148). -/
def closingEvent (a c : Byte) (d : List Byte) : Event :=
  if d = [] then .error .malformed
  else if xorAll d = 0x00#8 then .frameReady ⟨a, c, d.dropLast⟩
  else .error .checksumMismatch

section Closing
variable {cfg : Config} {a c : Byte}

theorem closingEvent_ne_cont (a c : Byte) (d : List Byte) : closingEvent a c d ≠ .cont := by
  rw [closingEvent]; split_ifs <;> nofun

theorem xorAll_concat_eq_zero_iff (p : List Byte) (b2 : Byte) : xorAll (p ++ [b2]) = 0x00#8 ↔ xorAll p = b2 := by
  rw [xorAll_concat]; exact BitVec.xor_eq_zero_iff

theorem closingEvent_concat (a c : Byte) (p : List Byte) (b2 : Byte) :
    closingEvent a c (p ++ [b2]) = if xorAll p = b2 then .frameReady ⟨a, c, p⟩ else .error .checksumMismatch := by
  rw [closingEvent, if_neg (List.concat_ne_nil b2 p), List.dropLast_concat]
  simp only [xorAll_concat_eq_zero_iff]

theorem rxFeed_closingEvent (hc : classOf c = .info) (d : List Byte) :
    rxFeed cfg ⟨.bccRcv, a, c, false, d⟩ Wire.flag = (⟨.start, a, c, false, []⟩, closingEvent a c d) := by
  rcases List.eq_nil_or_concat d with rfl | ⟨p, b2, rfl⟩
  · rw [rxFeed_region _ rfl hc rfl]; rfl
  · rw [List.concat_eq_append, rxFeed_close_info hc, closingEvent_concat]

/-- A frame delivered from no more bytes than a payload has lost one to its BCC2. -/
theorem FirstReport.of_closingEvent {g : Frame} {exceptional : Prop} {d : List Byte}
    (hlen : d.length ≤ g.payload.length) (hiff : exceptional ↔ d ≠ [] ∧ xorAll d = 0x00#8) :
    FirstReport g exceptional (closingEvent a c d) := by
  rw [closingEvent]
  split_ifs with hd hx
  · exact .of_error fun h => (hiff.mp h).1 hd
  · refine ⟨fun _ => ⟨_, rfl, ?_⟩, fun h => absurd (hiff.mpr ⟨hd, hx⟩) h⟩
    rintro rfl
    have hpos : 0 < d.length := List.length_pos_iff.mpr hd
    rw [List.length_dropLast] at hlen
    omega
  · exact .of_error fun h => hx (hiff.mp h).2

end Closing

/-! ### A flag in the stuffed region -/

/-- A symbol is one byte, or an ESC and its successor. -/
theorem sym_one_or_two (b : Byte) : sym b = [b] ∨ ∃ x, sym b = [Wire.esc, x] := by
  rcases sym_cases b with ⟨-, h⟩ | ⟨-, h⟩ | ⟨-, -, h⟩
  · exact .inr ⟨_, h⟩
  · exact .inr ⟨_, h⟩
  · exact .inl h

/-- A cut of a stuffed sequence stands before a symbol, or between the ESC of a symbol and its successor. -/
theorem take_stuff {d : List Byte} {j : Nat} (hj : j < (stuff d).length) :
    ∃ d', d'.length < d.length ∧ ((stuff d).take j = stuff d' ∨ (stuff d).take j = stuff d' ++ [Wire.esc]) := by
  induction d generalizing j with
  | nil => simp at hj
  | cons v d ih =>
    have behind : ∀ n < (stuff d).length, ∃ d', d'.length < (v :: d).length ∧
        (sym v ++ (stuff d).take n = stuff d' ∨ sym v ++ (stuff d).take n = stuff d' ++ [Wire.esc]) := by
      intro n hn
      obtain ⟨d', hlt, hcut⟩ := ih hn
      exact ⟨v :: d', Nat.succ_lt_succ hlt, by simpa [stuff_cons] using hcut⟩
    rw [stuff_cons] at hj ⊢
    rcases sym_one_or_two v with hv | ⟨x, hv⟩ <;> rw [hv] at behind hj ⊢
    · match j with
      | 0 => exact ⟨[], Nat.zero_lt_succ _, .inl rfl⟩
      | j + 1 => exact behind j (Nat.lt_of_add_lt_add_right hj)
    · match j with
      | 0 => exact ⟨[], Nat.zero_lt_succ _, .inl rfl⟩
      | 1 => exact ⟨[], Nat.zero_lt_succ _, .inr rfl⟩
      | j + 2 => exact behind j (Nat.lt_of_add_lt_add_right hj)

theorem stuff_eq_nil {d : List Byte} (h : stuff d = []) : d = [] := by
  have hd := destuff_stuff d
  rw [h] at hd
  exact (Option.some.inj hd).symm

/-- Destuffing reads a stuffed sequence in front as the bytes it stands for. -/
theorem destuff_stuff_append (d s : List Byte) : destuff (stuff d ++ s) = (destuff s).map (d ++ ·) := by
  induction d with
  | nil => simp
  | cons v d ih => rw [stuff_cons, List.append_assoc, destuff_sym_append, ih, Option.map_map]; rfl

section Damaged
variable {cfg : Config} {g : Frame}

/-- A flag that cuts the stuffed region after some of its bytes: an escape left pending is Malformed, and whole symbols
are the body that the flag closes. -/
theorem reportsOnce_cut {a c : Byte} {d rest : List Byte} {j : Nat} (hc : classOf c = .info)
    (hroom : ∀ m, cfg.maxPayload = some m → d.length ≤ m + 1) (hj : j < (stuff d).length)
    (hrest : Wire.flag ∉ rest) (hlen : d.length = g.payload.length + 1) :
    ∃ e, ReportsOnce cfg ⟨.bccRcv, a, c, false, []⟩ ((stuff d).take j ++ Wire.flag :: (rest ++ [Wire.flag])) e ∧
      FirstReport g (∃ d', destuff ((stuff d).take j) = some d' ∧ d' ≠ [] ∧ xorAll d' = 0x00#8) e := by
  obtain ⟨d', hlt, hcut⟩ := take_stuff hj
  have hheld : rxRun cfg ⟨.bccRcv, a, c, false, []⟩ (stuff d') =
      (⟨.bccRcv, a, c, false, d'⟩, contEvents (stuff d').length) :=
    rxRun_stuffed hc d' fun m hm => by simpa using hlt.le.trans (hroom m hm)
  rcases hcut with hcut | hcut <;> rw [hcut]
  · refine ⟨_, .after hheld
      (.of_first (rxFeed_closingEvent hc d') rfl (closingEvent_ne_cont a c d') hrest), .of_closingEvent (by omega) ?_⟩
    simp [destuff_stuff]
  · refine ⟨.error .malformed, ?_, .of_error (by simp [destuff_stuff_append, destuff_trailing_esc])⟩
    have hescaped : rxRun cfg ⟨.bccRcv, a, c, false, []⟩ (stuff d' ++ [Wire.esc]) =
        (⟨.bccRcv, a, c, true, d'⟩, contEvents ((stuff d').length + 1)) := by
      rw [rxRun_append_of hheld, contEvents_add]
      simp [rxRun, rxFeed_region, hc, feedRegion]
    exact .after hescaped (.of_first (by rw [rxFeed_successor _ rfl hc rfl]; rfl) rfl nofun hrest)

theorem Valid.addr_ne_flag (hv : Valid cfg g) : g.addr ≠ Wire.flag := hv.1

theorem Valid.ctrl_ne_flag (hv : Valid cfg g) : g.ctrl ≠ Wire.flag := fun h => hv.2.1 (h ▸ classOf_flag)

/-- The receiver has room for a valid payload with its BCC2 (R24, R78). -/
theorem Valid.room (hv : Valid cfg g) (b2 : Byte) :
    ∀ m, cfg.maxPayload = some m → (g.payload ++ [b2]).length ≤ m + 1 := by
  obtain ⟨-, -, -, hfits⟩ := hv
  exact (payloadTooLong_eq_false_iff b2).mp hfits

theorem info_of_region {j : Nat} (hj : j < (stuffedRegion g).length) : classOf g.ctrl = .info := by
  by_contra hne
  rw [stuffedRegion_of_ne_info hne] at hj
  cases hj

theorem encodeFrame_set_region {j : Nat} (hj : j < (stuffedRegion g).length) :
    (encodeFrame g).set (j + 4) Wire.flag =
      [Wire.flag, g.addr, g.ctrl, bcc1 g.addr g.ctrl] ++
        ((stuffedRegion g).take j ++ Wire.flag :: ((stuffedRegion g).drop (j + 1) ++ [Wire.flag])) := by
  have hset : (encodeFrame g).set (j + 4) Wire.flag =
      [Wire.flag, g.addr, g.ctrl, bcc1 g.addr g.ctrl] ++ (stuffedRegion g ++ [Wire.flag]).set j Wire.flag := rfl
  rw [hset, List.set_append_left _ _ hj, List.set_eq_take_append_cons_drop, if_pos hj, List.append_assoc]
  rfl

theorem encodeFrame_take_region {j : Nat} (hj : j < (stuffedRegion g).length) :
    ((encodeFrame g).take (j + 4)).drop 4 = (stuffedRegion g).take j := by
  have htake : ((encodeFrame g).take (j + 4)).drop 4 = (stuffedRegion g ++ [Wire.flag]).take j := rfl
  rw [htake, List.take_append_of_le_length hj.le]

/-- A flag in the stuffed region (R154, exception (a)). -/
theorem reportsOnce_flag_in_region (hv : Valid cfg g) {j : Nat} (hj : j < (stuffedRegion g).length) :
    ∃ e, ReportsOnce cfg Rx.reset ((encodeFrame g).set (j + 4) Wire.flag) e ∧
      FirstReport g (∃ d, destuff ((stuffedRegion g).take j) = some d ∧ d ≠ [] ∧ xorAll d = 0x00#8) e := by
  have hc := info_of_region hj
  have hrest : Wire.flag ∉ (stuffedRegion g).drop (j + 1) := fun h =>
    flag_not_mem_stuffedRegion g (List.mem_of_mem_drop h)
  rw [encodeFrame_set_region hj]
  rw [stuffedRegion_info hc] at hj hrest ⊢
  obtain ⟨e, hrep, hfirst⟩ := reportsOnce_cut (g := g) (a := g.addr) hc (hv.room _) hj hrest (by simp)
  exact ⟨e, .after (rxRun_header g.ctrl (.inl rfl) hv.addr_ne_flag) hrep, hfirst⟩

/-! ### A flag in the header -/

/-- A flag and two bytes, the first of them no flag, are latched as a header's address and control byte (R142 to
R144). -/
theorem rxRun_latches {r : Rx} {a : Byte} (c : Byte) (hs : r.state = .start ∨ r.state = .flagRcv)
    (ha : a ≠ Wire.flag) :
    rxRun cfg r [Wire.flag, a, c] = ({ r with state := .ctrlRcv, addr := a, ctrl := c }, contEvents 3) := by
  obtain ⟨st, a', c', e, buf⟩ := r
  rcases hs with rfl | rfl <;>
    simp [rxRun, rxFeed, feedStart, feedFlagRcv, feedAddrRcv, ha, contEvents, List.replicate_succ]

theorem rxFeed_bccMismatch {r : Rx} {b : Byte} (hs : r.state = .ctrlRcv) (hb : b ≠ bcc1 r.addr r.ctrl) :
    rxFeed cfg r b = (toStart r, .error .bccMismatch) := by
  rw [rxFeed_ctrlRcv b hs, feedCtrlRcv, if_neg hb]; rfl

theorem bcc1_bcc1 (a c : Byte) : bcc1 c (bcc1 a c) = a := by
  rw [bcc1, bcc1, BitVec.xor_comm a c, ← BitVec.xor_assoc, BitVec.xor_self, BitVec.zero_xor]

/-- A flag in place of the control byte. -/
theorem reportsOnce_flag_as_ctrl (hv : Valid cfg g) :
    ReportsOnce cfg Rx.reset ((encodeFrame g).set 2 Wire.flag) (.error .bccMismatch) := by
  have hset : (encodeFrame g).set 2 Wire.flag =
      [Wire.flag, g.addr, Wire.flag] ++ bcc1 g.addr g.ctrl :: (stuffedRegion g ++ [Wire.flag]) := rfl
  have hne : bcc1 g.addr g.ctrl ≠ bcc1 g.addr Wire.flag := fun h =>
    hv.ctrl_ne_flag ((BitVec.xor_right_inj g.addr).mp h)
  rw [hset]
  exact .after (rxRun_latches _ (.inl rfl) hv.addr_ne_flag)
    (.of_first (rxFeed_bccMismatch rfl hne) rfl nofun (flag_not_mem_stuffedRegion g))

/-- A flag in place of BCC1. -/
theorem reportsOnce_flag_as_bcc1 (hv : Valid cfg g) (hb : bcc1 g.addr g.ctrl ≠ Wire.flag) :
    ReportsOnce cfg Rx.reset ((encodeFrame g).set 3 Wire.flag) (.error .bccMismatch) := by
  have hset : (encodeFrame g).set 3 Wire.flag =
      [Wire.flag, g.addr, g.ctrl] ++ Wire.flag :: (stuffedRegion g ++ [Wire.flag]) := rfl
  rw [hset]
  exact .after (rxRun_latches _ (.inl rfl) hv.addr_ne_flag)
    (.of_first (rxFeed_bccMismatch rfl hb.symm) rfl nofun (flag_not_mem_stuffedRegion g))

/-- In the body behind a header that is no information header every byte but a flag is Malformed (R146, R147). -/
theorem rxFeed_malformed_of_ne_info {r : Rx} {b : Byte} (hs : r.state = .bccRcv) (hc : classOf r.ctrl ≠ .info)
    (hb : b ≠ Wire.flag) : rxFeed cfg r b = (toStart r, .error .malformed) := by
  cases hc' : classOf r.ctrl with
  | supervisory => rw [rxFeed_supervisory b hs hc', feedSupervisory, if_neg hb]; rfl
  | unassigned => rw [rxFeed_unassigned b hs hc']; rfl
  | info => exact absurd hc' hc

/-- No address takes one information control byte to another by way of ESC. -/
theorem bcc1_esc_ne_info {c : Byte} (hc : classOf c = .info) : classOf (bcc1 Wire.esc c) ≠ .info := by
  rcases (Proofs.classIsExactMatch c).2.1.mp hc with rfl | rfl <;> decide

section Shifted
variable {a c : Byte} {esc : Bool} {buf : List Byte}

/-- With the address `a` lost, the control byte `c` is read as the address and BCC1 as the control byte, whose checksum
is the lost address. -/
theorem reportsOnce_shifted_mismatch {b : Byte} {rest : List Byte} (hb : b ≠ a) (hrest : Wire.flag ∉ rest) :
    ReportsOnce cfg ⟨.ctrlRcv, c, bcc1 a c, esc, buf⟩ (b :: (rest ++ [Wire.flag])) (.error .bccMismatch) :=
  .of_first (rxFeed_bccMismatch rfl (by rwa [bcc1_bcc1])) rfl nofun hrest

theorem rxRun_shifted_match :
    rxRun cfg ⟨.ctrlRcv, c, bcc1 a c, esc, buf⟩ [a] = (⟨.bccRcv, c, bcc1 a c, false, []⟩, contEvents 1) := by
  simp [rxRun, rxFeed_ctrlRcv, feedCtrlRcv, bcc1_bcc1, contEvents]

theorem reportsOnce_shifted_malformed {rest : List Byte} (hi : classOf (bcc1 a c) ≠ .info) (hne : rest ≠ [])
    (hrest : Wire.flag ∉ rest) :
    ReportsOnce cfg ⟨.ctrlRcv, c, bcc1 a c, esc, buf⟩ (a :: (rest ++ [Wire.flag])) (.error .malformed) := by
  obtain ⟨b, rest, rfl⟩ := List.exists_cons_of_ne_nil hne
  rw [List.mem_cons, not_or] at hrest
  exact .after rxRun_shifted_match (.of_first (rxFeed_malformed_of_ne_info rfl hi (Ne.symm hrest.1)) rfl nofun hrest.2)

/-- The first byte of the stuffed region of an I-frame whose address is lost; `v :: s` is the payload with its BCC2. -/
theorem reportsOnce_shifted_region {v : Byte} {s : List Byte} (hc : classOf c = .info)
    (hx : xorAll (v :: s) = 0x00#8) (hroom : ∀ m, cfg.maxPayload = some m → s.length ≤ m + 1)
    (hlen : s.length = g.payload.length) :
    ∃ e, ReportsOnce cfg ⟨.ctrlRcv, c, bcc1 a c, esc, buf⟩ (stuff (v :: s) ++ [Wire.flag]) e ∧
      FirstReport g (a = 0x00#8 ∧ v = 0x00#8 ∧ s ≠ []) e := by
  have hzero : bcc1 0x00#8 c = c := BitVec.zero_xor
  have hxs : xorAll s = v := by
    rw [xorAll_cons, BitVec.xor_eq_zero_iff] at hx; exact hx.symm
  have hrest := flag_not_mem_stuff (v :: s)
  rw [stuff_cons] at hrest ⊢
  rcases sym_one_or_two v with hv | ⟨x, hv⟩ <;> rw [hv, List.cons_append, List.mem_cons, not_or] at hrest
  · rw [hv, List.append_assoc]
    by_cases hva : v = a
    case neg =>
      exact ⟨_, reportsOnce_shifted_mismatch hva hrest.2, .of_error fun ⟨ha, hv0, _⟩ => hva (hv0.trans ha.symm)⟩
    subst hva
    by_cases hi : classOf (bcc1 v c) = .info
    case pos =>
      have hclose : ReportsOnce cfg ⟨.bccRcv, c, bcc1 v c, false, []⟩ (stuff s ++ [Wire.flag])
          (closingEvent c (bcc1 v c) s) :=
        .after (rxRun_stuffed (buf := []) hi s (by simpa using hroom))
          (.of_last (rxFeed_closingEvent hi s) rfl (closingEvent_ne_cont _ _ s))
      exact ⟨_, .after rxRun_shifted_match hclose, .of_closingEvent hlen.le (by rw [hxs]; tauto)⟩
    have hv0 : v ≠ 0x00#8 := fun hv0 => hi (by rwa [hv0, hzero])
    have hne : stuff s ≠ [] := fun hs => hv0 (by rw [← hxs, stuff_eq_nil hs, xorAll_nil])
    exact ⟨_, reportsOnce_shifted_malformed hi hne hrest.2, .of_error fun ⟨ha, _⟩ => hv0 ha⟩
  · have hv0 : v ≠ 0x00#8 := by rintro rfl; cases hv
    rw [hv]
    by_cases hesc : Wire.esc = a
    · subst hesc
      exact ⟨_, reportsOnce_shifted_malformed (bcc1_esc_ne_info hc) (List.cons_ne_nil x (stuff s)) hrest.2,
        .of_error fun ⟨_, h, _⟩ => hv0 h⟩
    · exact ⟨_, reportsOnce_shifted_mismatch hesc hrest.2, .of_error fun ⟨_, h, _⟩ => hv0 h⟩

end Shifted

/-- The first byte of a payload, seen in the payload with its BCC2. -/
theorem head?_eq_some_iff_of_concat {p s : List Byte} {b2 v x : Byte} (h : p ++ [b2] = v :: s) :
    p.head? = some x ↔ v = x ∧ s ≠ [] := by
  cases p with
  | nil => obtain ⟨-, rfl⟩ := List.cons.inj h; simp
  | cons y p => obtain ⟨rfl, rfl⟩ := List.cons.inj h; simp

/-- A flag in place of the address (R154, exception (b)). -/
theorem reportsOnce_flag_as_addr (hv : Valid cfg g) :
    ∃ e, ReportsOnce cfg Rx.reset ((encodeFrame g).set 1 Wire.flag) e ∧
      FirstReport g (g.addr = 0x00#8 ∧ classOf g.ctrl = .info ∧ g.payload.head? = some 0x00#8) e := by
  have hset : (encodeFrame g).set 1 Wire.flag =
      [Wire.flag, Wire.flag, g.ctrl, bcc1 g.addr g.ctrl] ++ (stuffedRegion g ++ [Wire.flag]) := rfl
  have hfront : rxRun cfg Rx.reset [Wire.flag, Wire.flag, g.ctrl, bcc1 g.addr g.ctrl] =
      (⟨.ctrlRcv, g.ctrl, bcc1 g.addr g.ctrl, false, []⟩, contEvents 4) := by
    have hopen := rxRun_flags_of_waiting (cfg := cfg) (r := Rx.reset) (.inl rfl) Nat.one_pos
    exact (rxRun_append_of hopen _).trans (by rw [rxRun_latches _ (.inr rfl) hv.ctrl_ne_flag]; rfl)
  rw [hset]
  by_cases hc : classOf g.ctrl = .info
  · rw [stuffedRegion_info hc]
    obtain ⟨v, s, hvs⟩ := List.exists_cons_of_ne_nil (List.concat_ne_nil (xorAll g.payload) g.payload)
    have hlen : s.length = g.payload.length := by simpa using (congrArg List.length hvs).symm
    have hzero : xorAll (v :: s) = 0x00#8 := by rw [← hvs, xorAll_concat_eq_zero_iff]
    have hroom : ∀ m, cfg.maxPayload = some m → s.length ≤ m + 1 := fun m hm =>
      (Nat.le_succ _).trans (by simpa [hvs] using hv.room (xorAll g.payload) m hm)
    obtain ⟨e, hrep, hfirst⟩ := reportsOnce_shifted_region (a := g.addr) hc hzero hroom hlen
    rw [hvs]
    exact ⟨e, .after hfront hrep, by simpa [hc, head?_eq_some_iff_of_concat hvs] using hfirst⟩
  · rw [stuffedRegion_of_ne_info hc]
    have hne : Wire.flag ≠ bcc1 g.ctrl (bcc1 g.addr g.ctrl) := by rw [bcc1_bcc1]; exact hv.addr_ne_flag.symm
    exact ⟨_, .after hfront (.of_last (rxFeed_bccMismatch rfl hne) rfl nofun),
      .of_error fun ⟨_, h, _⟩ => hc h⟩

/-! ### A flag anywhere inside the frame -/

/-- The two exceptions of R154: (a) the part of the stuffed region before the flag is whole symbols that fold to zero,
(b) the address 0x00 of an I-frame is lost and its payload begins with 0x00. -/
def MisreadAsFrame (g : Frame) (i : Nat) : Prop :=
  (classOf g.ctrl = .info ∧ 4 ≤ i ∧
    (∃ d, destuff (((encodeFrame g).take i).drop 4) = some d ∧ d ≠ [] ∧ xorAll d = 0x00#8)) ∨
  (g.addr = 0x00#8 ∧ i = 1 ∧ classOf g.ctrl = .info ∧ g.payload.head? = some 0x00#8)

theorem reportsOnce_flag_inside (hv : Valid cfg g) {i : Nat} {b : Byte} (hi : 1 ≤ i)
    (hlen : i + 2 ≤ (encodeFrame g).length) (hget : (encodeFrame g)[i]? = some b) (hb : b ≠ Wire.flag) :
    ∃ e, ReportsOnce cfg Rx.reset ((encodeFrame g).set i Wire.flag) e ∧ FirstReport g (MisreadAsFrame g i) e := by
  match i with
  | 0 => contradiction
  | 1 => simpa [MisreadAsFrame] using reportsOnce_flag_as_addr hv
  | 2 => exact ⟨_, reportsOnce_flag_as_ctrl hv, .of_error (by simp [MisreadAsFrame])⟩
  | 3 =>
    obtain rfl : bcc1 g.addr g.ctrl = b := Option.some.inj hget
    exact ⟨_, reportsOnce_flag_as_bcc1 hv hb, .of_error (by simp [MisreadAsFrame])⟩
  | j + 4 =>
    have hj : j < (stuffedRegion g).length := by rw [encodeFrame_length] at hlen; omega
    simpa [MisreadAsFrame, info_of_region hj, encodeFrame_take_region hj] using reportsOnce_flag_in_region hv hj

end Damaged

end Sys2Proof.Machine
end

section
/-! PROOFS. The obligations of 42_receiver.md. -/

namespace Sys2Proof.Proofs
open Sys2Proof.Machine

/-- Settles O48, by induction on the frames: each leaves the receiver in Start, where noise and flags are silent. -/
theorem receiverAcceptsEncodedFrames : Obligations.ReceiverAcceptsEncodedFrames := by
  unfold Obligations.ReceiverAcceptsEncodedFrames
  intro m gaps last k hgaps hlast
  obtain ⟨hstate, hresults⟩ := rxRun_framedStream (r := Rx.reset) rfl hgaps
  obtain ⟨r', -, hidle⟩ := rxRun_idle (cfg := { maxPayload := m }) hstate hlast k
  refine ⟨_, execAll_feeds _ _, ?_⟩
  rw [takeBytes_eq_rxRun, State.powerOn_cfg, State.powerOn_rx, State.powerOn_results, List.nil_append, ← framedStream,
    rxRun_append, List.map_append, hresults, hidle, map_contEvents]
  rfl

/-- Settles O49: the damaged frame gives one event, an error but in the two exceptions, and only noise and flags stand
between that event and the frame behind it. -/
theorem resynchronizesAfterCorruptedFlag : Obligations.ResynchronizesAfterCorruptedFlag := by
  unfold Obligations.ResynchronizesAfterCorruptedFlag
  intro m g f i b hg hf hi hlen hget hb
  obtain ⟨e, hrep, hexceptional, hother⟩ := reportsOnce_flag_inside hg hi hlen hget hb
  refine ⟨_, e, execAll_feeds _ _, ?_, hexceptional, hother⟩
  rw [takeBytes_eq_rxRun, State.powerOn_results, List.nil_append]
  exact hrep.notable_then_frame hf

/-- Settles O25: an event other than Continue comes with the return to Start, and Continue never brings the receiver
there. -/
theorem oneEventPerFeed : Obligations.OneEventPerFeed := by
  unfold Obligations.OneEventPerFeed
  intro s b
  refine ⟨(rxFeed s.cfg s.rx b).1, (rxFeed s.cfg s.rx b).2, exec_feed_of_rxFeed rfl, fun he => ?_,
    rxFeed_start_of_cont⟩
  have hstart := (rxFeed_cont_or_toStart s.cfg s.rx b).resolve_left he
  rw [hstart]
  exact ⟨rfl, rfl, rfl⟩

/-- Settles O46: Start ignores what is no flag, FlagRcv absorbs flags, and no arm before CtrlRcv has an error. -/
theorem noiseIsSilent : Obligations.NoiseIsSilent := by
  unfold Obligations.NoiseIsSilent
  refine ⟨fun s bs hs hb => ?_, fun s n hs hn => ?_, fun s t b why hexec hresults => ?_⟩
  · obtain ⟨⟨st, a, c, e, buf⟩, cfg, p, rs⟩ := s
    obtain rfl : st = .start := hs
    rw [execAll_feeds, takeBytes_eq_rxRun, rxRun_noise hb, map_contEvents]
  · rw [execAll_feeds, takeBytes_eq_rxRun, rxRun_flags_of_waiting hs hn, map_contEvents]
  · by_contra hne
    obtain ⟨hctrl, hbcc⟩ := not_or.mp hne
    have hcont := rxFeed_event_of_header (cfg := s.cfg) (b := b) hctrl hbcc
    rw [rxFeed_event_of_exec_feed hexec hresults] at hcont
    cases hcont

/-- Settles O14: RESET writes `Rx.reset`. -/
theorem resetClearsReceiver : Obligations.ResetClearsReceiver := by
  unfold Obligations.ResetClearsReceiver
  exact exec_reset

/-- Settles O16, by whether the byte is the flag. -/
theorem feedInStart : Obligations.FeedInStart := by
  unfold Obligations.FeedInStart
  refine fun s b hs => ⟨fun hb => ?_, fun hb => ?_⟩ <;> apply exec_feed_of_rxFeed <;> rw [rxFeed_start b hs]
  · exact if_pos hb
  · exact if_neg hb

/-- Settles O17, by whether the byte is the flag. -/
theorem feedInFlagRcv : Obligations.FeedInFlagRcv := by
  unfold Obligations.FeedInFlagRcv
  refine fun s b hs => ⟨fun hb => ?_, fun hb => ?_⟩ <;> apply exec_feed_of_rxFeed <;> rw [rxFeed_flagRcv b hs]
  · exact if_pos hb
  · exact if_neg hb

/-- Settles O18: AddrRcv latches whatever byte comes. -/
theorem feedInAddrRcv : Obligations.FeedInAddrRcv := by
  unfold Obligations.FeedInAddrRcv
  exact fun s b hs => exec_feed_of_rxFeed (rxFeed_addrRcv b hs)

/-- Settles O19, by whether the byte is the checksum of the latched header. -/
theorem feedInCtrlRcv : Obligations.FeedInCtrlRcv := by
  unfold Obligations.FeedInCtrlRcv
  refine fun s b hs => ⟨fun hb => ?_, fun hb => ?_⟩ <;> apply exec_feed_of_rxFeed <;> rw [rxFeed_ctrlRcv b hs]
  · exact if_pos hb
  · exact if_neg hb

/-- Settles O20, by whether the byte is the flag. -/
theorem feedAfterSupervisoryHeader : Obligations.FeedAfterSupervisoryHeader := by
  unfold Obligations.FeedAfterSupervisoryHeader
  refine fun s b hs hc => ⟨fun hb => ?_, fun hb => ?_⟩ <;> apply exec_feed_of_rxFeed <;>
    rw [rxFeed_supervisory b hs hc]
  · exact if_pos hb
  · exact if_neg hb

/-- Settles O21: the arm does not look at the byte. -/
theorem feedAfterUnassignedHeader : Obligations.FeedAfterUnassignedHeader := by
  unfold Obligations.FeedAfterUnassignedHeader
  exact fun s b hs hc => exec_feed_of_rxFeed (rxFeed_unassigned b hs hc)

/-- Settles O22: the flag is `closeInfo`, by what the buffer holds; ESC is kept pending; any other byte is `append`. -/
theorem feedInStuffedRegion : Obligations.FeedInStuffedRegion := by
  unfold Obligations.FeedInStuffedRegion
  intro s b hr he
  have hfeed : rxFeed s.cfg s.rx b = feedRegion s.cfg s.rx b := rxFeed_region b hr.1 hr.2 he
  have hclose : b = Wire.flag → rxFeed s.cfg s.rx b = closeInfo s.rx := fun hb => hfeed.trans (if_pos hb)
  have hlit : b ≠ Wire.flag → b ≠ Wire.esc → rxFeed s.cfg s.rx b = append s.cfg s.rx b := fun hf hx =>
    hfeed.trans ((if_neg hf).trans (if_neg hx))
  refine ⟨fun hb hbuf => ?_, fun p b2 hb hbuf hx => ?_, fun p b2 hb hbuf hx => ?_, fun hb => ?_,
    fun hf hx hfull => ?_, fun hf hx hroom => ?_⟩ <;> apply exec_feed_of_rxFeed
  · exact (hclose hb).trans (closeInfo_empty hbuf)
  · exact (hclose hb).trans ((closeInfo_concat hbuf).trans (if_pos hx))
  · exact (hclose hb).trans ((closeInfo_concat hbuf).trans (if_neg hx))
  · subst hb
    exact hfeed.trans ((if_neg esc_ne_flag).trans (if_pos rfl))
  · exact (hlit hf hx).trans (append_full b (State.bufFull_of_full hfull))
  · exact (hlit hf hx).trans (append_room b (State.bufFull_of_not_full hroom))

/-- Settles O23: each legal successor is `append` of the byte it stands for; any other byte is an error. -/
theorem feedAfterEscape : Obligations.FeedAfterEscape := by
  unfold Obligations.FeedAfterEscape
  intro s b hr he
  have hfeed : rxFeed s.cfg s.rx b = feedSuccessor s.cfg s.rx b := rxFeed_successor b hr.1 hr.2 he
  have hflag : b = Wire.escFlagSucc → rxFeed s.cfg s.rx b = append s.cfg (clearEsc s.rx) Wire.flag := fun hb =>
    hfeed.trans (if_pos hb)
  have hesc : b = Wire.escEscSucc → rxFeed s.cfg s.rx b = append s.cfg (clearEsc s.rx) Wire.esc := by
    rintro rfl
    exact hfeed.trans ((if_neg escEscSucc_ne_escFlagSucc).trans (if_pos rfl))
  refine ⟨fun hb hroom => ?_, fun hb hroom => ?_, fun hb hfull => ?_, fun hf hx => ?_⟩ <;>
    apply exec_feed_of_rxFeed
  · exact (hflag hb).trans (append_room _ (State.bufFull_of_not_full hroom))
  · exact (hesc hb).trans (append_room _ (State.bufFull_of_not_full hroom))
  · have hover := fun v => append_full (r := clearEsc s.rx) v (State.bufFull_of_full hfull)
    rcases hb with hb | hb
    · exact (hflag hb).trans (hover _)
    · exact (hesc hb).trans (hover _)
  · exact hfeed.trans ((if_neg hf).trans (if_neg hx))

/-- Settles O27: a frame-type row is the taking of its one wire byte, which AddrRcv latches. -/
theorem frameTypeLatchesControl : Obligations.FrameTypeLatchesControl := by
  unfold Obligations.FrameTypeLatchesControl
  intro s hs
  have hrow : ∀ i c, i ≠ .reset → unitOf i = .rx → wireBytes i = [c] →
      exec i s = .next (s.fed { s.rx with ctrl := c, state := .ctrlRcv } .cont) := by
    intro i c hr hu hw
    rw [exec_wire s hr hu, hw, takeBytes_cons, takeBytes_nil, ← exec_feed]
    exact feedInAddrRcv s c hs
  exact ⟨hrow .set _ nofun rfl rfl, hrow .ua _ nofun rfl rfl, hrow .disc _ nofun rfl rfl,
    fun nr => hrow (.rr nr) _ nofun rfl (wireBytes_rr nr), fun nr => hrow (.rej nr) _ nofun rfl (wireBytes_rej nr),
    fun ns => hrow (.info ns) _ nofun rfl (wireBytes_info ns)⟩

end Sys2Proof.Proofs
end

section
/-! PROOFS. The error entry and the codes of events and verdicts: what the obligations of 60_exceptions.md need. -/

namespace Sys2Proof.Machine

/-- An Error event comes from `raiseError` alone (R185). -/
theorem rxFeed_eq_raiseError {cfg : Config} {r : Rx} {b : Byte} {why : Reason}
    (h : (rxFeed cfg r b).2 = .error why) : rxFeed cfg r b = raiseError r why := by
  have hstart : (rxFeed cfg r b).1 = toStart r :=
    (rxFeed_cont_or_toStart cfg r b).resolve_left fun hcont => nomatch hcont.symm.trans h
  exact Prod.ext hstart h

/-- The code 3 is no event kind (R181). -/
theorem Event.kind_ne_three (e : Event) : e.kind ≠ 3 := by
  cases e with
  | cont | frameReady _ | error _ => simp [Event.kind]

end Sys2Proof.Machine
end

section
/-! PROOFS. The obligations of 60_exceptions.md. -/

namespace Sys2Proof.Proofs
open Sys2Proof.Machine

/-- Settles O26: the event tells that the FEED was an error entry, and `raiseError` is `to_start()` with the event. -/
theorem errorEntry : Obligations.ErrorEntry := by
  unfold Obligations.ErrorEntry
  intro s t b why hexec hresults
  have hfeed : rxFeed s.cfg s.rx b = raiseError s.rx why :=
    rxFeed_eq_raiseError (rxFeed_event_of_exec_feed hexec hresults)
  exact Host.Outcome.next.inj (hexec.symm.trans (exec_feed_of_rxFeed hfeed))

/-- Settles O55, row by row of R181's and R180's tables. -/
theorem eventAndVerdictCodes : Obligations.EventAndVerdictCodes := by
  unfold Obligations.EventAndVerdictCodes
  exact ⟨⟨rfl, rfl, rfl⟩, fun _ => ⟨rfl, rfl, rfl⟩, fun _ => ⟨rfl, rfl⟩, rfl, rfl, rfl, Event.kind_ne_three,
    fun _ => rfl, rfl, rfl⟩

end Sys2Proof.Proofs
end

section
/-! PROOFS. What 70_reset_and_hazards.md's statements share: that a command completes, what a receiver makes of a frame
without its opening flag, and the overflow of its buffer. -/

namespace Sys2Proof.Machine

/-! ### A command completes (R202) -/

/-- No command stops the machine, writes the parameter, touches the host's list or removes a result. -/
theorem exec_completes (i : Instr) (s : State) :
    ∃ t, exec i s = .next t ∧ t.cfg = s.cfg ∧ t.pending = s.pending ∧ ∃ rs, t.results = s.results ++ rs := by
  rcases exec_cases i s with ⟨-, h⟩ | ⟨-, h⟩ | ⟨-, x, -, h⟩ <;> refine ⟨_, h, ?_⟩
  · exact ⟨rfl, rfl, [], (List.append_nil _).symm⟩
  · obtain ⟨es, -, hes⟩ := takeBytes_results s (wireBytes i)
    exact ⟨takeBytes_cfg s _, takeBytes_pending s _, _, hes⟩
  · exact ⟨rfl, rfl, [x], rfl⟩

section Lost
variable {cfg : Config} {r : Rx}

/-! ### A frame without its opening flag (R204) -/

/-- A closing flag stands behind what is noise to a receiver in Start. -/
theorem encodeFrame_tail (g : Frame) :
    (encodeFrame g).tail =
      [g.addr, g.ctrl, bcc1 g.addr g.ctrl] ++ stuffedRegion g ++ List.replicate 1 Wire.flag := rfl

/-- With no flag in the header, a receiver in Start skips the frame and takes its closing flag for an opening one. -/
theorem rxRun_encodeFrame_tail {g : Frame} (hs : r.state = .start) (ha : g.addr ≠ Wire.flag)
    (hc : g.ctrl ≠ Wire.flag) (hb : bcc1 g.addr g.ctrl ≠ Wire.flag) :
    ∃ n, rxRun cfg r (encodeFrame g).tail = ({ r with state := .flagRcv }, contEvents n) := by
  obtain ⟨st, a, c, e, buf⟩ := r
  obtain rfl : st = .start := hs
  have hnoise : ∀ b ∈ [g.addr, g.ctrl, bcc1 g.addr g.ctrl] ++ stuffedRegion g, b ≠ Wire.flag := by
    refine List.forall_mem_ne'.mpr ?_
    simp [flag_not_mem_stuffedRegion, ha.symm, hc.symm, hb.symm]
  rw [encodeFrame_tail, rxRun_append_of (rxRun_noise hnoise), rxRun_flags_of_waiting (.inl rfl) Nat.one_pos,
    ← contEvents_add]
  exact ⟨_, rfl⟩

/-! ### A payload that overflows the buffer (R43, R210) -/

/-- The one report of the bytes is their one notable event. -/
theorem ReportsOnce.notable_eq {bs : List Byte} {e : Event} (hrep : ReportsOnce cfg r bs e) :
    notable ((rxRun cfg r bs).2.map .event) = [e] := by
  obtain ⟨head, noise, k, n, r', rfl, hnoise, hrun, hs, he⟩ := hrep
  obtain ⟨_, -, hidle⟩ := rxRun_idle (cfg := cfg) hs hnoise k
  rw [rxRun_append_of hrun, hidle, List.map_append, notable_append, notable_report n he, map_contEvents, notable_conts,
    List.append_nil]

variable {a c : Byte}

/-- A symbol in the region with the buffer full: its literal byte overflows (R43, R148, R149). -/
theorem rxRun_sym_full {buf : List Byte} (hc : classOf c = .info) (v : Byte)
    (hfull : bufFull cfg ⟨.bccRcv, a, c, false, buf⟩ = true) :
    ∃ n, rxRun cfg ⟨.bccRcv, a, c, false, buf⟩ (sym v) =
      (⟨.start, a, c, false, []⟩, contEvents n ++ [.error .malformed]) := by
  have hover := fun v => append_full v hfull
  rcases sym_cases v with ⟨-, hsym⟩ | ⟨-, hsym⟩ | ⟨hf, he, hsym⟩ <;> rw [hsym]
  case inr.inr => exact ⟨0, by simp [rxRun, rxFeed_region, hc, feedRegion, hf, he, hover, raiseError, toStart]⟩
  all_goals
    exact ⟨1, by
      simp [rxRun, rxFeed_region, rxFeed_successor, hc, feedRegion, feedSuccessor, clearEsc, hover, raiseError,
        toStart]⟩

/-- More than `m + 1` stuffed bytes are Malformed at the byte that finds the buffer full; the rest of them is noise to
the receiver in Start. -/
theorem reportsOnce_overflow {m : Nat} {d : List Byte} (hc : classOf c = .info) (hm : cfg.maxPayload = some m)
    (hlen : m + 1 < d.length) :
    ReportsOnce cfg ⟨.bccRcv, a, c, false, []⟩ (stuff d ++ [Wire.flag]) (.error .malformed) := by
  have hd : d = d.take (m + 1) ++ d[m + 1] :: d.drop (m + 2) := by simp
  have hheld : (d.take (m + 1)).length = m + 1 := List.length_take_of_le hlen.le
  have hfill : rxRun cfg ⟨.bccRcv, a, c, false, []⟩ (stuff (d.take (m + 1))) =
      (⟨.bccRcv, a, c, false, d.take (m + 1)⟩, contEvents (stuff (d.take (m + 1))).length) :=
    rxRun_stuffed hc _ fun m' hm' => by
      obtain rfl : m = m' := Option.some.inj (hm.symm.trans hm')
      simp [hheld]
  obtain ⟨n, hover⟩ := rxRun_sym_full (cfg := cfg) (a := a) hc d[m + 1] ((bufFull_iff _ _).mpr ⟨m, hm, hheld⟩)
  rw [hd, stuff_append, stuff_cons, List.append_assoc, List.append_assoc]
  exact .after hfill ⟨_, _, 1, n, _, rfl, List.forall_mem_ne'.mpr (flag_not_mem_stuff _), hover, rfl, nofun⟩

end Lost

end Sys2Proof.Machine
end

section
/-! PROOFS. The obligations of 70_reset_and_hazards.md. -/

namespace Sys2Proof.Proofs
open Sys2Proof.Machine

/-- Settles O13: a step is idle or runs a command on a state that differs in the host's list alone. -/
theorem everyCommandCompletes : Obligations.EveryCommandCompletes := by
  unfold Obligations.EveryCommandCompletes
  refine ⟨exec_completes, fun s => ?_⟩
  have hrun : ∀ i p, step s = exec i { s with pending := p } →
      ∃ t, step s = .next t ∧ t.cfg = s.cfg ∧ ∃ rs, t.results = s.results ++ rs := by
    intro i p hstep
    obtain ⟨t, ht, hcfg, -, hresults⟩ := exec_completes i { s with pending := p }
    exact ⟨t, hstep.trans ht, hcfg, hresults⟩
  rcases step_cases s with ⟨-, h⟩ | ⟨w, f, raw, p, -, h⟩ | ⟨b, rest, p, -, h⟩
  · exact ⟨s, h, rfl, [], (List.append_nil _).symm⟩
  · exact hrun _ _ h
  · exact hrun _ _ h

/-- Settles O50: the shared flag closes the first frame, so the second arrives in Start, where only its closing flag is
seen. -/
theorem sharedFlagLosesSecondFrame : Obligations.SharedFlagLosesSecondFrame := by
  unfold Obligations.SharedFlagLosesSecondFrame
  intro m f g hf hg hc hb
  obtain ⟨n, hlost⟩ := rxRun_encodeFrame_tail (cfg := { maxPayload := m })
    (r := ⟨.start, f.addr, f.ctrl, false, []⟩) rfl hg.addr_ne_flag hc hb
  have hboth := rxRun_append_of (rxRun_encodeFrame hf (r := Rx.reset) (.inl rfl)) (encodeFrame g).tail
  rw [hlost] at hboth
  refine ⟨_, execAll_feeds _ _, ?_, ?_⟩ <;>
    rw [takeBytes_eq_rxRun, State.powerOn_cfg, State.powerOn_rx, hboth]
  rw [List.map_append, map_contEvents, State.powerOn_results, List.nil_append, notable_append, notable_conts,
    notable_report _ (e := .frameReady f) nofun, List.append_nil]

/-- Settles O51: the payload with its BCC2 is more than `m + 1` bytes, and the header before it gives Continue. -/
theorem oversizePayloadIsMalformed : Obligations.OversizePayloadIsMalformed := by
  unfold Obligations.OversizePayloadIsMalformed
  intro m f ha hc hlen
  have hover : m + 1 < (f.payload ++ [xorAll f.payload]).length := by simpa using hlen
  have hrep : ReportsOnce { maxPayload := some m } Rx.reset (encodeFrame f) (.error .malformed) := by
    rw [encodeFrame_info hc, List.append_assoc]
    exact .after (rxRun_header f.ctrl (.inl rfl) ha) (reportsOnce_overflow hc rfl hover)
  refine ⟨_, execAll_feeds _ _, ?_⟩
  rw [takeBytes_eq_rxRun, State.powerOn_results, List.nil_append]
  exact hrep.notable_eq

/-- Settles O11: with nothing issued there is nothing to fetch. -/
theorem idleStepChangesNothing : Obligations.IdleStepChangesNothing := by
  unfold Obligations.IdleStepChangesNothing
  intro s hs
  rw [step, fetch_nil hs]

end Sys2Proof.Proofs
end
